-- ==== Sys2Proof/Word.lean ====
section
/-! DEFINITION. The machine's words (spec 00_scope.md R4, R5): the 16-bit word, the 4-bit register specifier, and the
sparse word-addressed memory. The machine has no bytes (20_memory.md R36), so a memory cell holds a whole word
(log 1, DESIGN CHOICE, safe). -/

namespace Sys2Proof

/-- A 16-bit word: every register, every memory word, every instruction (R4, R5). -/
abbrev Word := BitVec 16

/-- A 4-bit register specifier; each of its 16 values names an existing register (R55). -/
abbrev RegIdx := BitVec 4

/-- One listed word of a memory: its word address and its value. -/
abbrev Cell := Nat × Word

/-- The contents of one memory: the words that are not zero, addresses strictly rising (`Memory.wf`). An address that is
not listed reads as `0x0000`. -/
abbrev Memory := List Cell

end Sys2Proof
end

