-- ==== Sys2Proof/Config.lean ====
section
/-! DEFINITION. What the spec leaves to a parameter (00_scope.md R6, R7, R8): the two capacities, the two memory images
and the table of mode control words. They are plain data that `Machine.State` carries and no step changes (log 5), so
that a statement about every state is a statement about every choice of them. -/

namespace Sys2Proof

/-- The nine rows of the controller's decode table (41_controller.md R90). The halt word is no row of it. -/
inductive Op where
  | add | sub | nor | li | mr | addi | mw | bez | j
  deriving DecidableEq, Repr

/-- A mode control word as the record of its eight named signals (R91), which the source advises over bit positions. -/
structure Mcw where
  /-- Position 0, PCsrc: 1 takes the jump target as next `pc`. -/
  pcSrc : Bool
  /-- Position 1, Branch: 1 lets a zero `x[A]` replace the `+1` of the PC adder by the immediate. -/
  branch : Bool
  /-- Position 2, MemWrite: 1 stores `x[A]` at `mar`. -/
  memWrite : Bool
  /-- Position 3, ALUsrc: 1 takes the immediate as second ALU operand. -/
  aluSrc : Bool
  /-- Positions 4-5, ALUop; position 4 is the high bit. -/
  aluOp : BitVec 2
  /-- Position 6, MARwrite: 1 loads `mar` with the ALU result. -/
  marWrite : Bool
  /-- Position 7, RegWrite: 1 writes `x[A]`. -/
  regWrite : Bool
  /-- Position 8, RegDst: 1 writes back the ALU result, 0 the memory value. -/
  regDst : Bool
  deriving DecidableEq, Repr

/-- `MCW_TABLE` (R8): one control word for each of the nine operations. -/
structure McwTable where
  add : Mcw
  sub : Mcw
  nor : Mcw
  li : Mcw
  mr : Mcw
  addi : Mcw
  mw : Mcw
  bez : Mcw
  j : Mcw
  deriving DecidableEq, Repr

/-- The named parameters of the machine (R6, R7, R8). An image is held sparsely: an address it does not list is the
all-zero word, up to the capacity. -/
structure Params where
  /-- `IMEM_CAP`, the number of words of instruction memory. -/
  imemCap : Nat
  /-- `DMEM_CAP`, the number of words of data memory. -/
  dmemCap : Nat
  /-- `IMEM_INIT`, the program image. -/
  imemInit : Memory
  /-- `DMEM_INIT`, the data image. -/
  dmemInit : Memory
  /-- `MCW_TABLE`. -/
  mcwTable : McwTable
  deriving DecidableEq, Repr

end Sys2Proof
end

