-- ==== Sys2Proof/Machine/Primitives.lean ====
section
/-! DEFINITION. The combinational primitives of 40_primitives.md (R70 to R83), for words of any width `n`. Where the
spec gives an algorithm and also its closed form (negation, the adder), both stand here: the datapath computes the
closed form. -/

namespace Sys2Proof.Machine

/-- The word of width `n` whose bit `i` is `f i`. -/
def ofBits (f : Nat → Bool) : (n : Nat) → BitVec n
  | 0 => 0#0
  | n + 1 => BitVec.cons (f n) (ofBits f n)

/-- `negate(w)` (R72): two's-complement negation, `(~w + 1) mod 2^n`. -/
def negate {n : Nat} (w : BitVec n) : BitVec n := ~~~w + 1

/-- Whether some bit of `w` below bit `i` is set. -/
def anySetBelow {n : Nat} (w : BitVec n) : Nat → Bool
  | 0 => false
  | i + 1 => anySetBelow w i || w.getLsbD i

/-- `negate(w)` by the source's own algorithm (R72): bits up to and including the lowest set bit are copied, every bit
above it is inverted. -/
def negateByScan {n : Nat} (w : BitVec n) : BitVec n :=
  ofBits (fun i => if anySetBelow w i then !w.getLsbD i else w.getLsbD i) n

/-- `toInteger(w)`, written `signed(w)` (R70): with the top bit set, minus the unsigned magnitude of the negation. -/
def toInteger {n : Nat} (w : BitVec n) : Int :=
  if w.msb then -((negate w).toNat : Int) else (w.toNat : Int)

/-- `fromInteger(n, value)` (R71): the magnitude in binary, negated for a negative value. A magnitude that does not fit
is refused (decision D14, log 14); the datapath never asks for one. -/
def fromInteger (n : Nat) (value : Int) : Option (BitVec n) :=
  if value.natAbs ≤ 2 ^ n - 1 then
    some (if value < 0 then negate (BitVec.ofNat n value.natAbs) else BitVec.ofNat n value.natAbs)
  else none

/-- The carry into bit `i` of the ripple adder (R73): `c[0] = 0`, then the majority of the two bits and the carry. -/
def rippleCarry {n : Nat} (a b : BitVec n) : Nat → Bool
  | 0 => false
  | i + 1 =>
    (a.getLsbD i && b.getLsbD i) || (a.getLsbD i && rippleCarry a b i) || (b.getLsbD i && rippleCarry a b i)

/-- `add(a, b)` by the full-adder equations (R73): the carry out of the top bit is dropped. -/
def rippleAdd {n : Nat} (a b : BitVec n) : BitVec n :=
  ofBits (fun i => (a.getLsbD i ^^ b.getLsbD i) ^^ rippleCarry a b i) n

/-- `add(a, b)` (R73, R75): the sum modulo `2^n`, no flag. -/
def addWords {n : Nat} (a b : BitVec n) : BitVec n := a + b

/-- `nor(a, b)` (R77): a bit is 1 iff both input bits are 0. -/
def norWords {n : Nat} (a b : BitVec n) : BitVec n := ~~~(a ||| b)

/-- `operate(op, a, b)` (R74): add, subtract as addition of the negation (R76), nor, and for opcode `11` the first
operand unchanged (R78). -/
def aluOperate {n : Nat} (op : BitVec 2) (a b : BitVec n) : BitVec n :=
  if op = 0b00#2 then addWords a b
  else if op = 0b01#2 then addWords a (negate b)
  else if op = 0b10#2 then norWords a b
  else a

/-- `extend(N, f)` (R79): copies of the sign bit on the left up to `N` bits; a field already that wide is unchanged. -/
def extend (N : Nat) {m : Nat} (f : BitVec m) : BitVec (max N m) := f.signExtend (max N m)

/-- `sext_16(ins[7:0])` (R53): the one instance of `extend` in the datapath. -/
def extend16 (f : BitVec 8) : Word := f.signExtend 16

/-- `mux(sel, in0, in1)` (R80). A selector is one bit, so R81's other values have no representation. -/
def mux {α : Type} (sel : Bool) (in0 in1 : α) : α := if sel then in1 else in0

/-- `update(v)` on a register of width `W` (R82): all-zero for an absent value; a narrower value padded with zeros on
the left; of a wider one the leftmost `W` bits (conflict C1). -/
def registerUpdate (W : Nat) (v : Option ((m : Nat) × BitVec m)) : BitVec W :=
  match v with
  | none => 0
  | some ⟨m, w⟩ => if m ≤ W then w.setWidth W else (w >>> (m - W)).setWidth W

end Sys2Proof.Machine
end

