-- ==== Sys2Proof/Machine/Memory.lean ====
section
/-! DEFINITION. One memory as a list of its non-zero words in one canonical form, and the access primitives over a
signed 16-bit address (20_memory.md R31 to R34). -/

namespace Sys2Proof

/-- The word at a word address; an unlisted address reads as the all-zero word. -/
def Memory.read (m : Memory) (k : Nat) : Word :=
  match m with
  | [] => 0x0000
  | c :: rest => if c.1 = k then c.2 else Memory.read rest k

/-- Puts the word `v` at address `k` of a rising list, in place of any word listed there. -/
def Memory.insert (m : Memory) (k : Nat) (v : Word) : Memory :=
  match m with
  | [] => [(k, v)]
  | c :: rest =>
    if k < c.1 then (k, v) :: c :: rest
    else if k = c.1 then (k, v) :: rest
    else c :: Memory.insert rest k v

/-- Takes every word listed at address `k` out. -/
def Memory.erase (m : Memory) (k : Nat) : Memory :=
  m.filter (fun c => c.1 != k)

/-- Overwrites the whole word at address `k`. Writing the word an unlisted address reads as takes the entry out, so
equal contents are equal lists. -/
def Memory.write (m : Memory) (k : Nat) (v : Word) : Memory :=
  if v = 0x0000 then Memory.erase m k else Memory.insert m k v

/-- The canonical form of a memory of `cap` words: addresses strictly rising and below the capacity, no zero word
listed. -/
abbrev Memory.wf (cap : Nat) (m : Memory) : Prop :=
  m.Pairwise (fun c d => c.1 < d.1) ∧ ∀ c ∈ m, c.1 < cap ∧ c.2 ≠ 0x0000

/-- The memory whose word at address `k`, `k + 1`, ... is the next word of the list. -/
def Memory.ofWordsFrom (k : Nat) (ws : List Word) : Memory :=
  match ws with
  | [] => []
  | w :: rest =>
    if w = 0x0000 then Memory.ofWordsFrom (k + 1) rest else (k, w) :: Memory.ofWordsFrom (k + 1) rest

/-- An image given as its words from address 0, normalised to exactly `cap` words (R7, R46): words beyond the capacity
are dropped, missing ones are all-zero. -/
def Memory.ofWords (cap : Nat) (ws : List Word) : Memory :=
  Memory.ofWordsFrom 0 (ws.take cap)

/-- Whether the signed value of an addressing register names a word of a memory of `cap` words (R31, R32). A pattern
with bit 15 set is negative and names none (R34, decision D5, log 8). -/
def inRange (cap : Nat) (a : Word) : Bool :=
  decide (0 ≤ Machine.toInteger a) && decide (Machine.toInteger a < (cap : Int))

/-- The word address that an addressing register in range names. -/
def cellIndex (a : Word) : Nat := (Machine.toInteger a).toNat

/-- The read primitive `IFetch(a)`, `MemRead(a, 1)` (R32): out of range it gives the all-zero word, never a fault (R35). -/
def Memory.readAt (cap : Nat) (m : Memory) (a : Word) : Word :=
  if inRange cap a then Memory.read m (cellIndex a) else 0x0000

/-- The write primitive `MemWrite(a, 1, v)` (R33): out of range nothing happens. -/
def Memory.writeAt (cap : Nat) (m : Memory) (a v : Word) : Memory :=
  if inRange cap a then Memory.write m (cellIndex a) v else m

end Sys2Proof
end

