-- ==== Sys2Proof/Syntax.lean ====
section
/-! DEFINITION. The instructions: one constructor per row of spec/opcode_table.json (30_encoding.md R59), with the
operands of its format (R52). -/

namespace Sys2Proof

/-- An instruction. Each operand is a bit vector of exactly the width of its field, so every term is one the encoding
can hold (R55: a register specifier is never out of range). The first register operand is always both a source and the
destination (R13). -/
inductive Instr where
  /-- `HALT`: the all-zero word (R137). -/
  | halt
  /-- `ADD rA, rB` (R120). -/
  | add (ra rb : RegIdx)
  /-- `SUB rA, rB` (R121). -/
  | sub (ra rb : RegIdx)
  /-- `NOR rA, rB` (R122). -/
  | nor (ra rb : RegIdx)
  /-- `LI rA, imm` (R123). -/
  | li (ra : RegIdx) (imm : BitVec 8)
  /-- `MR rA, imm` (R130). -/
  | mr (ra : RegIdx) (imm : BitVec 8)
  /-- `ADDI rA, imm` (R124). -/
  | addi (ra : RegIdx) (imm : BitVec 8)
  /-- `MW rA, imm` (R131). -/
  | mw (ra : RegIdx) (imm : BitVec 8)
  /-- `BEZ rA, off` (R135). -/
  | bez (ra : RegIdx) (off : BitVec 8)
  /-- `J target` (R136). -/
  | j (target : BitVec 12)
  deriving DecidableEq, Repr

end Sys2Proof
end

