-- ==== Sys2Proof/WellFormed.lean ====
section
/-! DEFINITION. What is checked where a type does not already say it. An `Instr` needs no check: its operands have the
widths of their fields. Checked are the parameters (00_scope.md R6, R7) and the operands of an assembly line
(30_encoding.md R62), which are numbers. -/

namespace Sys2Proof

/-- A capacity is an integer `1 <= cap <= 32768` (R6, decision D4). -/
abbrev capacityOk (cap : Nat) : Prop := 1 ≤ cap ∧ cap ≤ 32768

/-- Well-formed parameters: both capacities in range, each image a canonical memory of its capacity (R6, R7). -/
abbrev Params.wf (p : Params) : Prop :=
  capacityOk p.imemCap ∧ capacityOk p.dmemCap ∧ Memory.wf p.imemCap p.imemInit ∧ Memory.wf p.dmemCap p.dmemInit

/-- A line of the spec's own assembly syntax (R62), its operands the numbers written. -/
inductive Asm where
  | add (a b : Nat)
  | sub (a b : Nat)
  | nor (a b : Nat)
  | li (a : Nat) (imm : Int)
  | mr (a : Nat) (imm : Int)
  | addi (a : Nat) (imm : Int)
  | mw (a : Nat) (imm : Int)
  | bez (a : Nat) (off : Int)
  | j (target : Nat)
  | halt
  | word (v : Nat)
  deriving DecidableEq, Repr

/-- A register is written `r0` to `r15`. -/
abbrev regOk (a : Nat) : Prop := a < 16

/-- An immediate or offset is a signed integer -128..127. -/
abbrev immOk (imm : Int) : Prop := -128 ≤ imm ∧ imm ≤ 127

/-- A jump target is an integer 0..4095. -/
abbrev targetOk (target : Nat) : Prop := target ≤ 4095

/-- The constraints of R62's table, line by line. -/
def Asm.wellFormed (l : Asm) : Bool :=
  match l with
  | .add a b | .sub a b | .nor a b => decide (regOk a ∧ regOk b)
  | .li a imm | .mr a imm | .addi a imm | .mw a imm | .bez a imm => decide (regOk a ∧ immOk imm)
  | .j target => decide (targetOk target)
  | .halt => true
  | .word v => decide (v < 65536)

end Sys2Proof
end

