-- ==== Sys2Proof/Decode.lean ====
section
/-! DEFINITION. The instruction decoder, total on all 65536 words and rejecting by name (30_encoding.md R51 to R60,
41_controller.md R90), and after it the encoder and the assembler of R62. -/

namespace Sys2Proof

/-- `ins[15:12]` (R51). -/
def opcodeField (ins : Word) : BitVec 4 := ins.extractLsb' 12 4

/-- `ins[11:8]`. -/
def regAField (ins : Word) : RegIdx := ins.extractLsb' 8 4

/-- `ins[7:4]`. -/
def regBField (ins : Word) : RegIdx := ins.extractLsb' 4 4

/-- `ins[3:0]`. -/
def funcField (ins : Word) : BitVec 4 := ins.extractLsb' 0 4

/-- `ins[7:0]`. -/
def imm8Field (ins : Word) : BitVec 8 := ins.extractLsb' 0 8

/-- `ins[11:0]`. -/
def addrJField (ins : Word) : BitVec 12 := ins.extractLsb' 0 12

/-- The Controller's lookup (R90): nine rows, the function field taking part under opcode `0000` only (R56). -/
def controllerDecode (opcodeField functionField : BitVec 4) : Option Op :=
  match opcodeField.toNat, functionField.toNat with
  | 0b0000, 0b1000 => some .add
  | 0b0000, 0b0001 => some .sub
  | 0b0000, 0b0010 => some .nor
  | 0b0001, _ => some .li
  | 0b0010, _ => some .mr
  | 0b0100, _ => some .addi
  | 0b0110, _ => some .mw
  | 0b0111, _ => some .bez
  | 0b1000, _ => some .j
  | _, _ => none

/-- Why a word is no instruction (R60). -/
inductive DecodeReject where
  /-- Opcode `0000` and a function with no row. -/
  | illegalFunction (func : BitVec 4)
  /-- An opcode with no row. -/
  | illegalOpcode (opcode : BitVec 4)
  deriving DecidableEq, Repr

/-- The instruction an operation's row makes of the fields of a word (R52). -/
def instrOf (op : Op) (ins : Word) : Instr :=
  match op with
  | .add => .add (regAField ins) (regBField ins)
  | .sub => .sub (regAField ins) (regBField ins)
  | .nor => .nor (regAField ins) (regBField ins)
  | .li => .li (regAField ins) (imm8Field ins)
  | .mr => .mr (regAField ins) (imm8Field ins)
  | .addi => .addi (regAField ins) (imm8Field ins)
  | .mw => .mw (regAField ins) (imm8Field ins)
  | .bez => .bez (regAField ins) (imm8Field ins)
  | .j => .j (addrJField ins)

/-- The decoder (R57): the halt word first, then the Controller's table. -/
def decode (ins : Word) : Except DecodeReject Instr :=
  if ins = 0x0000 then .ok .halt
  else
    match controllerDecode (opcodeField ins) (funcField ins) with
    | some op => .ok (instrOf op ins)
    | none =>
      if opcodeField ins = 0b0000 then .error (.illegalFunction (funcField ins))
      else .error (.illegalOpcode (opcodeField ins))

/-- The encoder: the word of an instruction, from the patterns of R59. -/
def encode (i : Instr) : Word :=
  match i with
  | .halt => 0x0000
  | .add ra rb => 0b0000#4 ++ ra ++ rb ++ 0b1000#4
  | .sub ra rb => 0b0000#4 ++ ra ++ rb ++ 0b0001#4
  | .nor ra rb => 0b0000#4 ++ ra ++ rb ++ 0b0010#4
  | .li ra imm => 0b0001#4 ++ ra ++ imm
  | .mr ra imm => 0b0010#4 ++ ra ++ imm
  | .addi ra imm => 0b0100#4 ++ ra ++ imm
  | .mw ra imm => 0b0110#4 ++ ra ++ imm
  | .bez ra off => 0b0111#4 ++ ra ++ off
  | .j target => 0b1000#4 ++ target

/-- The instruction an assembly line stands for (R62, decision D12, log 17); none for an ill-formed line and for
`.word`, which places a word and names no instruction. -/
def asmInstr (l : Asm) : Option Instr :=
  if l.wellFormed then
    match l with
    | .add a b => some (.add (BitVec.ofNat 4 a) (BitVec.ofNat 4 b))
    | .sub a b => some (.sub (BitVec.ofNat 4 a) (BitVec.ofNat 4 b))
    | .nor a b => some (.nor (BitVec.ofNat 4 a) (BitVec.ofNat 4 b))
    | .li a imm => some (.li (BitVec.ofNat 4 a) (BitVec.ofInt 8 imm))
    | .mr a imm => some (.mr (BitVec.ofNat 4 a) (BitVec.ofInt 8 imm))
    | .addi a imm => some (.addi (BitVec.ofNat 4 a) (BitVec.ofInt 8 imm))
    | .mw a imm => some (.mw (BitVec.ofNat 4 a) (BitVec.ofInt 8 imm))
    | .bez a off => some (.bez (BitVec.ofNat 4 a) (BitVec.ofInt 8 off))
    | .j target => some (.j (BitVec.ofNat 12 target))
    | .halt => some .halt
    | .word _ => none
  else none

/-- The word an assembly line places (R62); none for an ill-formed line. -/
def assemble (l : Asm) : Option Word :=
  match l with
  | .word v => if l.wellFormed then some (BitVec.ofNat 16 v) else none
  | _ => (asmInstr l).map encode

/-- The instruction the decoder reads from the bits `w` of a table row of `nbits` bits (bit 0 the least significant of
the one 16-bit word every instruction is, R50); bits above `nbits` are zero. -/
def decodeTableWord (nbits w : Nat) : Option Instr :=
  if nbits ≤ 16 ∧ w < 2 ^ nbits then
    match decode (BitVec.ofNat 16 w) with
    | .ok i => some i
    | .error _ => none
  else none

end Sys2Proof
end

