-- ==== Sys2Proof/Machine/Controller.lean ====
section
/-! DEFINITION. The control words (41_controller.md R91 to R95) and the parameters `State.reset` starts from. -/

namespace Sys2Proof.Machine

/-- The control word a table holds for an operation. -/
def controlWord (t : McwTable) (op : Op) : Mcw :=
  match op with
  | .add => t.add
  | .sub => t.sub
  | .nor => t.nor
  | .li => t.li
  | .mr => t.mr
  | .addi => t.addi
  | .mw => t.mw
  | .bez => t.bez
  | .j => t.j

/-- A control word as its 9-bit string: position 0 of R91 is the leftmost bit. -/
def mcwBits (c : Mcw) : BitVec 9 :=
  BitVec.ofBool c.pcSrc ++ BitVec.ofBool c.branch ++ BitVec.ofBool c.memWrite ++ BitVec.ofBool c.aluSrc ++ c.aluOp
    ++ BitVec.ofBool c.marWrite ++ BitVec.ofBool c.regWrite ++ BitVec.ofBool c.regDst

/-- The eight signals of a 9-bit control word (R91). -/
def mcwOfBits (w : BitVec 9) : Mcw where
  pcSrc := w.getLsbD 8
  branch := w.getLsbD 7
  memWrite := w.getLsbD 6
  aluSrc := w.getLsbD 5
  aluOp := w.extractLsb' 3 2
  marWrite := w.getLsbD 2
  regWrite := w.getLsbD 1
  regDst := w.getLsbD 0

/-- The default `MCW_TABLE`, the strings of R93 (decision D6, log 4). -/
def defaultMcwTable : McwTable where
  add := mcwOfBits 0b000000011#9
  sub := mcwOfBits 0b000001011#9
  nor := mcwOfBits 0b000010011#9
  li := mcwOfBits 0b000100011#9
  addi := mcwOfBits 0b000100011#9
  mr := mcwOfBits 0b000100110#9
  mw := mcwOfBits 0b001100100#9
  bez := mcwOfBits 0b010000000#9
  j := mcwOfBits 0b100000000#9

/-- The parameters of `State.reset`: the largest capacities R6 allows (DESIGN CHOICE, log 2), all-zero images (DESIGN
CHOICE, log 3), the default control words (R8, log 4). -/
def referenceParams : Params where
  imemCap := 32768
  dmemCap := 32768
  imemInit := []
  dmemInit := []
  mcwTable := defaultMcwTable

end Sys2Proof.Machine
end

