-- ==== Sys2Proof/Machine/State.lean ====
section
/-! DEFINITION. The whole state of the machine as plain data (10_state.md R10 to R24), its reset value, and the reasons
a step can stop. INVENTORY.md lists each field with its rule. -/

namespace Sys2Proof.Machine

/-- The run state (R15). -/
inductive RunState where
  | running
  | halted
  | faulted
  deriving DecidableEq, Repr

/-- The machine's state. Nothing else survives from one cycle to the next (R20, R21). -/
structure State where
  /-- The parameters of 00_scope.md R6, R7, R8; no step changes them (log 5). -/
  params : Params
  /-- `x[0]` to `x[15]` (R10); none is hardwired (R11). -/
  regs : Vector Word 16
  /-- The program counter: the word address of the instruction being executed (R14). -/
  pc : Word
  /-- The memory address register (R17). -/
  mar : Word
  /-- The run state (R15). -/
  run : RunState
  /-- Instruction memory (R19). -/
  imem : Memory
  /-- Data memory (R19). -/
  dmem : Memory
  deriving DecidableEq, Repr

/-- Why a step stops the machine. -/
inductive Fault where
  /-- `IllegalInstruction(pc, ins)` (60_exceptions.md R140, R141): raised by `step` when the fetched word is not the halt
  word and has no row of the decode table. The state the machine is left in (`run = FAULTED`, nothing else changed) is
  `tick`'s. Safe: nothing is proved of a run past it (decision D8, log 6). -/
  | illegalInstruction (pc ins : Word)
  deriving DecidableEq, Repr

/-- Why the model gives an instruction no meaning. -/
inductive Refusal where
  /-- Raised by an arm of `exec` whose instruction is not modelled; no arm is. Safe. -/
  | notModelled (mnemonic : String)
  deriving DecidableEq, Repr

/-- The state after power-on under given parameters (R23, R160): registers, `pc`, `mar` zero (decision D9, log 10),
RUNNING, both memories loaded with their images. -/
def State.powerOn (p : Params) : State where
  params := p
  regs := Vector.replicate 16 0x0000
  pc := 0x0000
  mar := 0x0000
  run := .running
  imem := p.imemInit
  dmem := p.dmemInit

/-- The machine right after reset, under the reference parameters (logs 2, 3, 4): no program is loaded. -/
def State.reset : State := State.powerOn referenceParams

end Sys2Proof.Machine
end

