-- ==== Sys2Proof/Machine/Operands.lean ====
section
/-! DEFINITION. Operand assembly: the fields the datapath takes from every instruction word (42_cycle.md R102) and the
form they have in each of the three formats (30_encoding.md R52 to R55). -/

namespace Sys2Proof.Machine

/-- What step 2 of the cycle extracts from an instruction word, whatever the opcode (R102). -/
structure Fields where
  /-- `ins[15:12] ++ ins[3:0]`, the decode key (R56). -/
  opfunc : BitVec 8
  /-- `0 ++ ins[11:8]` (R55). -/
  addrA : BitVec 5
  /-- `0 ++ ins[7:4]`. -/
  addrB : BitVec 5
  /-- `ins[11:0]` (R54). -/
  addrJ : BitVec 12
  /-- `sext_16(ins[7:0])` (R53). -/
  immediate16 : Word
  deriving DecidableEq, Repr

/-- Field extraction from a raw word (R102). -/
def fieldsOf (ins : Word) : Fields where
  opfunc := opcodeField ins ++ funcField ins
  addrA := 0#1 ++ regAField ins
  addrB := 0#1 ++ regBField ins
  addrJ := addrJField ins
  immediate16 := extend16 (imm8Field ins)

/-- The fields of an R-type instruction: opcode `0000`; `imm8` is `regB ++ func`, `addrJ` is `regA ++ regB ++ func`. -/
def rTypeFields (func : BitVec 4) (ra rb : RegIdx) : Fields where
  opfunc := 0b0000#4 ++ func
  addrA := 0#1 ++ ra
  addrB := 0#1 ++ rb
  addrJ := ra ++ rb ++ func
  immediate16 := extend16 (rb ++ func)

/-- The fields of an I-type instruction: the regB field is the top half of the immediate (R12). -/
def iTypeFields (opcode : BitVec 4) (ra : RegIdx) (imm : BitVec 8) : Fields where
  opfunc := opcode ++ imm.extractLsb' 0 4
  addrA := 0#1 ++ ra
  addrB := 0#1 ++ imm.extractLsb' 4 4
  addrJ := ra ++ imm
  immediate16 := extend16 imm

/-- The fields of the J-type instruction: the register fields are slices of the jump field (R12, R136). -/
def jTypeFields (target : BitVec 12) : Fields where
  opfunc := 0b1000#4 ++ target.extractLsb' 0 4
  addrA := 0#1 ++ target.extractLsb' 8 4
  addrB := 0#1 ++ target.extractLsb' 4 4
  addrJ := target
  immediate16 := extend16 (target.extractLsb' 0 8)

/-- The fields the datapath sees for an instruction. -/
def instrFields (i : Instr) : Fields :=
  match i with
  | .halt => fieldsOf 0x0000
  | .add ra rb => rTypeFields 0b1000 ra rb
  | .sub ra rb => rTypeFields 0b0001 ra rb
  | .nor ra rb => rTypeFields 0b0010 ra rb
  | .li ra imm => iTypeFields 0b0001 ra imm
  | .mr ra imm => iTypeFields 0b0010 ra imm
  | .addi ra imm => iTypeFields 0b0100 ra imm
  | .mw ra imm => iTypeFields 0b0110 ra imm
  | .bez ra off => iTypeFields 0b0111 ra off
  | .j target => jTypeFields target

/-- The decode-table row of an instruction; the halt word has none (R137). -/
def instrOp (i : Instr) : Option Op :=
  match i with
  | .halt => none
  | .add _ _ => some .add
  | .sub _ _ => some .sub
  | .nor _ _ => some .nor
  | .li _ _ => some .li
  | .mr _ _ => some .mr
  | .addi _ _ => some .addi
  | .mw _ _ => some .mw
  | .bez _ _ => some .bez
  | .j _ => some .j

/-- The register a 5-bit register address names: its leading `0` carries nothing (R55). -/
def regOfAddr (addr : BitVec 5) : RegIdx := addr.setWidth 4

/-- Step 5, the ALU-source multiplexer (R106): `RB` or the immediate. -/
def aluOperandB (c : Mcw) (f : Fields) (rb : Word) : Word := mux c.aluSrc rb f.immediate16

/-- Step 5, the PC-addend multiplexer (R106): the constant `+1` or the immediate. -/
def pcAddend (branchSelect : Bool) (f : Fields) : Word := mux branchSelect 0x0001 f.immediate16

/-- Step 11, the jump target (R112): the page of the jump's own address, then the jump field (R54). -/
def jumpTarget (pc : Word) (f : Fields) : Word := (pc.extractLsb' 12 4 : BitVec 4) ++ f.addrJ

end Sys2Proof.Machine
end

