-- ==== Sys2Proof/Machine/Flags.lean ====
section
/-! DEFINITION. The machine has no flags and no condition codes (10_state.md R25): no instruction writes one. The only
condition-like signal is branch-select, computed inside one cycle and not state (R20). -/

namespace Sys2Proof.Machine

/-- Step 4 (42_cycle.md R105): 1 iff the control word has Branch set and all 16 bits of `RA` are zero. -/
def branchSelect (c : Mcw) (ra : Word) : Bool := c.branch && (ra == 0x0000)

end Sys2Proof.Machine
end

