-- ==== Sys2Proof/Machine/Ops.lean ====
section
/-! DEFINITION. The named operations over registers and memories, the two terminal transitions, the one fault, and the
clock cycle as one function of the control word (42_cycle.md R101 to R113). -/

namespace Sys2Proof.Machine

/-- Read of a register-file entry; no side effect (R12). -/
def State.readReg (s : State) (r : RegIdx) : Word := s.regs[r.toNat]'r.isLt

/-- Write of a register-file entry, through the only write port (R13); no entry is hardwired (R11). -/
def State.writeReg (s : State) (r : RegIdx) (v : Word) : State := { s with regs := s.regs.set r.toNat v r.isLt }

/-- Update of the program counter (R112). -/
def State.setPc (s : State) (v : Word) : State := { s with pc := v }

/-- Update of the memory address register (R111). -/
def State.setMar (s : State) (v : Word) : State := { s with mar := v }

/-- The word of instruction memory at an address word (R32). -/
def State.imemAt (s : State) (a : Word) : Word := Memory.readAt s.params.imemCap s.imem a

/-- Step 1, fetch (R101): out of range it is the halt word (R35). -/
def State.ifetch (s : State) : Word := s.imemAt s.pc

/-- `MemRead(a, 1)` (R32). -/
def State.memRead (s : State) (a : Word) : Word := Memory.readAt s.params.dmemCap s.dmem a

/-- `MemWrite(a, 1, v)` (R33); it reaches data memory only (R44). -/
def State.memWrite (s : State) (a v : Word) : State :=
  { s with dmem := Memory.writeAt s.params.dmemCap s.dmem a v }

/-- The halt transition (R101, R137): nothing else changes, `pc` stays at the halt word. -/
def State.enterHalted (s : State) : State := { s with run := .halted }

/-- The state a decode failure leaves (R140): only `run` changes, so `pc` still addresses the offending word. -/
def State.enterFaulted (s : State) : State := { s with run := .faulted }

/-- The one fault of the machine, with its diagnostic pair (R140, R141). There is no handler, no saved state and no
return (R145, R146). -/
def illegalInstruction (s : State) (ins : Word) : Host.Outcome State Fault Refusal :=
  .fault (.illegalInstruction s.pc ins)

/-- Steps 3 to 11 of the cycle under a control word (R104 to R112). Every right-hand side reads the state of the start
of the cycle, but for the memory read, which follows the write of the same cycle at the same old `mar` (R41, R109). -/
def State.cycle (c : Mcw) (f : Fields) (s : State) : State :=
  let a := regOfAddr f.addrA
  let ra := s.readReg a
  let rb := s.readReg (regOfAddr f.addrB)
  let newPC := addWords s.pc (pcAddend (branchSelect c ra) f)
  let aluResult := aluOperate c.aluOp ra (aluOperandB c f rb)
  let s1 := if c.memWrite then s.memWrite s.mar ra else s
  let memReadValue := s1.memRead s.mar
  let s2 := if c.regWrite then s1.writeReg a (mux c.regDst memReadValue aluResult) else s1
  let s3 := if c.marWrite then s2.setMar aluResult else s2
  s3.setPc (mux c.pcSrc newPC (jumpTarget s.pc f))

/-- An executed cycle: the operation's control word from the machine's table drives the datapath. It never faults
(R142, R144). -/
def execCycle (op : Op) (f : Fields) (s : State) : Host.Outcome State Fault Refusal :=
  .next (State.cycle (controlWord s.params.mcwTable op) f s)

/-- The state with the instruction word `w` at the address it fetches from next, RUNNING. An image is loaded from
outside the machine (R163), so the image instruction memory was loaded from holds the word as well (R44); a `pc` that
addresses no word is first put at the entry point 0 (R39). -/
def State.placeWord (s : State) (w : Word) : State :=
  let s1 := if inRange s.params.imemCap s.pc then s else s.setPc 0x0000
  { s1 with
    run := .running
    imem := Memory.write s1.imem (cellIndex s1.pc) w
    params := { s1.params with imemInit := Memory.write s1.params.imemInit (cellIndex s1.pc) w } }

end Sys2Proof.Machine
end

