-- ==== Sys2Proof/Machine/Arith.lean ====
section
/-! DEFINITION. The arithmetic and logic instructions (43_arith.md): each is the cycle with its own control word. -/

namespace Sys2Proof.Machine

/-- ADD (R120): under the default table `x[A] <- x[A] + x[B]`. -/
def execAdd (ra rb : RegIdx) (s : State) : Host.Outcome State Fault Refusal :=
  execCycle .add (rTypeFields 0b1000 ra rb) s

/-- SUB (R121): under the default table `x[A] <- x[A] - x[B]`. -/
def execSub (ra rb : RegIdx) (s : State) : Host.Outcome State Fault Refusal :=
  execCycle .sub (rTypeFields 0b0001 ra rb) s

/-- NOR (R122): under the default table `x[A] <- nor(x[A], x[B])`. -/
def execNor (ra rb : RegIdx) (s : State) : Host.Outcome State Fault Refusal :=
  execCycle .nor (rTypeFields 0b0010 ra rb) s

/-- LI (R123): under the default table `x[A] <- x[A] + imm`: it adds, it does not overwrite (decision D6, log 4). -/
def execLi (ra : RegIdx) (imm : BitVec 8) (s : State) : Host.Outcome State Fault Refusal :=
  execCycle .li (iTypeFields 0b0001 ra imm) s

/-- ADDI (R124): under the default table `x[A] <- x[A] + imm`. -/
def execAddi (ra : RegIdx) (imm : BitVec 8) (s : State) : Host.Outcome State Fault Refusal :=
  execCycle .addi (iTypeFields 0b0100 ra imm) s

end Sys2Proof.Machine
end

