-- ==== Sys2Proof/Machine/Control.lean ====
section
/-! DEFINITION. Control transfer and halt (45_control.md). -/

namespace Sys2Proof.Machine

/-- HALT (R137): recognised at fetch, no control word. -/
def execHalt (s : State) : Host.Outcome State Fault Refusal := .next s.enterHalted

/-- BEZ (R135): under the default table a zero `x[A]` adds the offset to the branch's own address. -/
def execBez (ra : RegIdx) (off : BitVec 8) (s : State) : Host.Outcome State Fault Refusal :=
  execCycle .bez (iTypeFields 0b0111 ra off) s

/-- J (R136): under the default table `pc <- pc[15:12] ++ target`. -/
def execJ (target : BitVec 12) (s : State) : Host.Outcome State Fault Refusal :=
  execCycle .j (jTypeFields target) s

end Sys2Proof.Machine
end

