-- ==== Sys2Proof/Machine/MemoryOps.lean ====
section
/-! DEFINITION. The memory instructions (44_memory_ops.md): each makes its access at the old `mar` and, under the
default table, loads `mar` for the next one (decision D6, log 4). -/

namespace Sys2Proof.Machine

/-- MR (R130): under the default table `x[A] <- DMem[mar]` and `mar <- old x[A] + imm`. -/
def execMr (ra : RegIdx) (imm : BitVec 8) (s : State) : Host.Outcome State Fault Refusal :=
  execCycle .mr (iTypeFields 0b0010 ra imm) s

/-- MW (R131): under the default table `DMem[mar] <- x[A]` and `mar <- x[A] + imm`. -/
def execMw (ra : RegIdx) (imm : BitVec 8) (s : State) : Host.Outcome State Fault Refusal :=
  execCycle .mw (iTypeFields 0b0110 ra imm) s

end Sys2Proof.Machine
end

