-- ==== Sys2Proof/Machine/Dispatch.lean ====
section
/-! DEFINITION. One arm per instruction. -/

namespace Sys2Proof.Machine

def exec (i : Instr) (s : State) : Host.Outcome State Fault Refusal :=
  match i with
  | .halt => Sys2Proof.Machine.execHalt s
  | .add ra rb => Sys2Proof.Machine.execAdd ra rb s
  | .sub ra rb => Sys2Proof.Machine.execSub ra rb s
  | .nor ra rb => Sys2Proof.Machine.execNor ra rb s
  | .li ra imm => Sys2Proof.Machine.execLi ra imm s
  | .mr ra imm => Sys2Proof.Machine.execMr ra imm s
  | .addi ra imm => Sys2Proof.Machine.execAddi ra imm s
  | .mw ra imm => Sys2Proof.Machine.execMw ra imm s
  | .bez ra off => Sys2Proof.Machine.execBez ra off s
  | .j target => Sys2Proof.Machine.execJ target s

end Sys2Proof.Machine
end

