-- ==== Sys2Proof/Machine/Step.lean ====
section
/-! DEFINITION. One step of the machine is one clock cycle (00_scope.md R9, 42_cycle.md R100, R101, R103). -/

namespace Sys2Proof.Machine

/-- One pulse of the clock: nothing happens unless RUNNING (R100, decision D10, log 7); then fetch, decode, execute. The
tests come in the order of R144: run state, halt word, decode row. -/
def step (s : State) : Host.Outcome State Fault Refusal :=
  match s.run with
  | .halted => .next s
  | .faulted => .next s
  | .running =>
    match decode s.ifetch with
    | .ok i => exec i s
    | .error _ => illegalInstruction s s.ifetch

/-- `s` with the instruction whose bits are `w` placed where `step` fetches its next instruction (log 12). Bits above
the 16 of an instruction word are dropped: there are none (R50). -/
def State.withFetchWord (s : State) (nbits w : Nat) : State := s.placeWord (BitVec.ofNat 16 (w % 2 ^ nbits))

end Sys2Proof.Machine
end

