-- ==== Sys2Proof/Machine/Interface.lean ====
section
/-! DEFINITION. The host's side of the core (70_reset_and_hazards.md R160 to R162, R171; 42_cycle.md R100, R114): what
a clock pulse returns, the `reset` and `clear_data` inputs, a run under fuel, and the observation ports. -/

namespace Sys2Proof.Machine

/-- What one `tick` gives the host: the state after it, the boolean it returns, and the diagnostic of a fault raised in
this cycle. -/
structure TickResult where
  state : State
  running : Bool
  diagnostic : Option (Word × Word)
  deriving DecidableEq, Repr

/-- `tick` (R113, R171): `step` with the state a fault leaves (`run = FAULTED`, R140). It returns true iff the machine is
still RUNNING after the cycle (R100, R171). -/
def tick (s : State) : TickResult :=
  match step s with
  | .next t => { state := t, running := t.run == .running, diagnostic := none }
  | .fault (.illegalInstruction pc ins) =>
    { state := s.enterFaulted, running := false, diagnostic := some (pc, ins) }
  | .refused _ => { state := s, running := false, diagnostic := none }

/-- The `reset` input (R22, R161): registers, `pc`, `mar` zero, instruction memory loaded again, RUNNING; data memory is
untouched (conflict C4). -/
def State.assertReset (s : State) : State :=
  { s with
    regs := Vector.replicate 16 (registerUpdate 16 none)
    pc := registerUpdate 16 none
    mar := registerUpdate 16 none
    run := .running
    imem := s.params.imemInit }

/-- The `clear_data` input (R24, R162): every word of data memory becomes zero, nothing else changes. -/
def State.assertClearData (s : State) : State := { s with dmem := [] }

/-- The host's inputs; they act between cycles, one at a time (R171). -/
inductive HostInput where
  | clk
  | reset
  | clearData
  deriving DecidableEq, Repr

/-- The state after one host input. -/
def hostAct (i : HostInput) (s : State) : State :=
  match i with
  | .clk => (tick s).state
  | .reset => s.assertReset
  | .clearData => s.assertClearData

/-- The state after a sequence of host inputs. -/
def hostActs (is : List HostInput) (s : State) : State :=
  match is with
  | [] => s
  | i :: rest => hostActs rest (hostAct i s)

/-- `run()` (R114): pulses while RUNNING, under fuel, since a program need not halt. -/
def runFor (fuel : Nat) (s : State) : State :=
  match fuel with
  | 0 => s
  | k + 1 => if s.run = .running then runFor k (tick s).state else s

/-- The port `running` (R171). -/
def State.runningPort (s : State) : Bool := s.run == .running

/-- The port `faulted` (R171). -/
def State.faultedPort (s : State) : Bool := s.run == .faulted

/-- The ports `fault_pc`, `fault_ins` (R171): in FAULTED, `pc` still addresses the offending word (R140), so the
diagnostic is computed and not stored (R141, log 11). -/
def State.faultDiagnostic (s : State) : Option (Word × Word) :=
  if s.run = .faulted then some (s.pc, s.ifetch) else none

end Sys2Proof.Machine
end

