-- ==== Sys2Proof/Machine/Loader.lean ====
section
/-! DEFINITION. The image loader as 20_memory.md R46 records it (host side): lines of the characters `0` and `1`, one
word a line, normalised to the capacity. The backing file itself is out of scope (00_scope.md R3). -/

namespace Sys2Proof.Machine

/-- The bit a character stands for. -/
def charBit (c : Char) : Option Bool :=
  if c = '0' then some false else if c = '1' then some true else none

/-- The bits of a line, leftmost first; a line with another character is refused (R46, log 15). -/
def lineBits (line : List Char) : Option (List Bool) :=
  match line with
  | [] => some []
  | c :: rest =>
    match charBit c, lineBits rest with
    | some b, some bs => some (b :: bs)
    | _, _ => none

/-- The word of bits given leftmost first, padded with zeros on the left. -/
def wordOfBits (bits : List Bool) : Word :=
  bits.foldl (fun w b => (w <<< 1) ||| BitVec.zeroExtend 16 (BitVec.ofBool b)) 0x0000

/-- The word of a line: its first 16 characters (conflict C3), left-padded with `0` where it is shorter. -/
def lineWord (line : List Char) : Option Word :=
  (lineBits line).map (fun bits => wordOfBits (bits.take 16))

/-- The words of the lines of an image; one refused line refuses it. -/
def lineWords (lines : List (List Char)) : Option (List Word) :=
  match lines with
  | [] => some []
  | l :: rest =>
    match lineWord l, lineWords rest with
    | some w, some ws => some (w :: ws)
    | _, _ => none

/-- The image of a memory of `cap` words: lines beyond the capacity are ignored, missing lines are all-zero words. -/
def loadImage (cap : Nat) (lines : List (List Char)) : Option Memory :=
  (lineWords (lines.take cap)).map (Memory.ofWords cap)

end Sys2Proof.Machine
end

