-- ==== Sys2Proof/Safety.lean ====
section
/-! DEFINITION. The terms claims use: the machine's invariant, the standing premise about its control words, and a
normal end of a run (42_cycle.md R115). -/

namespace Sys2Proof.Machine

/-- The invariant of every state a machine can be in: well-formed parameters (R6, R7), data memory canonical within its
capacity, instruction memory exactly its image (R44). -/
abbrev State.Inv (s : State) : Prop :=
  s.params.wf ∧ Memory.wf s.params.dmemCap s.dmem ∧ s.imem = s.params.imemInit

/-- The machine uses the default control words of 41_controller.md R93 (R8). -/
abbrev State.UsesDefaultTable (s : State) : Prop := s.params.mcwTable = defaultMcwTable

/-- A normal end of a run (R115): a FAULTED state is not one. -/
abbrev State.EndedNormally (s : State) : Prop := s.run = .halted

/-- A step that does not fault. -/
def stepSafe (s : State) : Bool :=
  match step s with
  | .next _ => true
  | .fault _ => false
  | .refused _ => false

/-- The ten rows of 30_encoding.md R59, each as its `match` and its `mask`. -/
def rowPatterns : List (Word × Word) :=
  [(0x0000, 0xFFFF), (0x0008, 0xF00F), (0x0001, 0xF00F), (0x0002, 0xF00F), (0x1000, 0xF000), (0x2000, 0xF000),
    (0x4000, 0xF000), (0x6000, 0xF000), (0x7000, 0xF000), (0x8000, 0xF000)]

/-- The two instructions that use `mar` under the default control words. -/
def isMemoryInstr (i : Instr) : Bool :=
  match i with
  | .mr _ _ => true
  | .mw _ _ => true
  | .halt => false
  | .add _ _ => false
  | .sub _ _ => false
  | .nor _ _ => false
  | .li _ _ => false
  | .addi _ _ => false
  | .bez _ _ => false
  | .j _ => false

/-- The state after executing a list of instructions one after the other, whatever `pc` says. -/
def execAll (is : List Instr) (s : State) : Option State :=
  match is with
  | [] => some s
  | i :: rest =>
    match exec i s with
    | .next t => execAll rest t
    | .fault _ => none
    | .refused _ => none

/-- The next `pc` as 10_state.md R14 tells it, case by case. -/
def nextPcR14 (i : Instr) (s : State) : Word :=
  match i with
  | .halt => s.pc
  | .add _ _ => s.pc + 1
  | .sub _ _ => s.pc + 1
  | .nor _ _ => s.pc + 1
  | .li _ _ => s.pc + 1
  | .mr _ _ => s.pc + 1
  | .addi _ _ => s.pc + 1
  | .mw _ _ => s.pc + 1
  | .bez ra off => if s.readReg ra = 0x0000 then s.pc + off.signExtend 16 else s.pc + 1
  | .j target => ((s.pc.extractLsb' 12 4 ++ target : BitVec (4 + 12)) : Word)

/-- The part of 42_cycle.md R113 from the register fetch on, transcribed over the raw instruction word. -/
def cycleR113 (c : Mcw) (ins : Word) (s : State) : State :=
  let ra := s.readReg (ins.extractLsb' 8 4)
  let rb := s.readReg (ins.extractLsb' 4 4)
  let imm : Word := (ins.extractLsb' 0 8).signExtend 16
  let opB := if c.aluSrc then imm else rb
  let newPC := s.pc + (if c.branch = true ∧ ra = 0x0000 then imm else 0x0001)
  let alu := aluOperate c.aluOp ra opB
  let dmem := if c.memWrite then Memory.writeAt s.params.dmemCap s.dmem s.mar ra else s.dmem
  let mrd := Memory.readAt s.params.dmemCap dmem s.mar
  let jump : Word := (s.pc.extractLsb' 12 4 ++ ins.extractLsb' 0 12 : BitVec (4 + 12))
  { s with
    regs :=
      if c.regWrite then
        s.regs.set (ins.extractLsb' 8 4).toNat (if c.regDst then alu else mrd) (ins.extractLsb' 8 4).isLt
      else s.regs
    pc := if c.pcSrc then jump else newPC
    mar := if c.marWrite then alu else s.mar
    dmem := dmem }

/-- The whole cycle as the one function of 42_cycle.md R113, transcribed over the raw instruction word: what the
machine's decode, dispatch and datapath must agree with. -/
def tickR113 (s : State) : TickResult :=
  if s.run = .running then
    if s.ifetch = 0x0000 then { state := { s with run := .halted }, running := false, diagnostic := none }
    else
      match controllerDecode (s.ifetch.extractLsb' 12 4) (s.ifetch.extractLsb' 0 4) with
      | none => { state := { s with run := .faulted }, running := false, diagnostic := some (s.pc, s.ifetch) }
      | some op =>
        { state := cycleR113 (controlWord s.params.mcwTable op) s.ifetch s, running := true, diagnostic := none }
  else { state := s, running := false, diagnostic := none }

end Sys2Proof.Machine
end

