-- ==== Sys2Proof/Certificates/Slice0/Obligations.lean ====
section
/-! DEFINITION. The statements for the provers. Each docstring names the rule of spec/ it formalises; OBLIGATIONS.json
lists them with their tier and basis. -/

open Sys2Proof Sys2Proof.Machine

/-! ### Encoding -/

/-- Every instruction's encoding decodes to it, each operand at every value its field holds (30_encoding.md section 3). -/
def Obligations.DecodeOfEncodeIsTheInstruction : Prop :=
  ∀ i : Instr, decode (encode i) = .ok i

/-- A word that decodes is the encoding of what it decodes to: no bit of a legal instruction is a don't-care. -/
def Obligations.EncodeOfDecodeIsTheWord : Prop :=
  ∀ (w : Word) (i : Instr), decode w = .ok i → encode i = w

/-- R59: each row's `match` and `mask` select exactly its instruction, with the operands its pattern names; the ten
patterns are disjoint; a word that matches none is illegal. -/
def Obligations.DecoderSelectsTheRowsOfTheTable : Prop :=
  ∀ w : Word,
    (decode w = .ok .halt ↔ w &&& 0xFFFF = 0x0000) ∧
    (∀ ra rb, decode w = .ok (.add ra rb) ↔
      w &&& 0xF00F = 0x0008 ∧ w.extractLsb' 8 4 = ra ∧ w.extractLsb' 4 4 = rb) ∧
    (∀ ra rb, decode w = .ok (.sub ra rb) ↔
      w &&& 0xF00F = 0x0001 ∧ w.extractLsb' 8 4 = ra ∧ w.extractLsb' 4 4 = rb) ∧
    (∀ ra rb, decode w = .ok (.nor ra rb) ↔
      w &&& 0xF00F = 0x0002 ∧ w.extractLsb' 8 4 = ra ∧ w.extractLsb' 4 4 = rb) ∧
    (∀ ra imm, decode w = .ok (.li ra imm) ↔
      w &&& 0xF000 = 0x1000 ∧ w.extractLsb' 8 4 = ra ∧ w.extractLsb' 0 8 = imm) ∧
    (∀ ra imm, decode w = .ok (.mr ra imm) ↔
      w &&& 0xF000 = 0x2000 ∧ w.extractLsb' 8 4 = ra ∧ w.extractLsb' 0 8 = imm) ∧
    (∀ ra imm, decode w = .ok (.addi ra imm) ↔
      w &&& 0xF000 = 0x4000 ∧ w.extractLsb' 8 4 = ra ∧ w.extractLsb' 0 8 = imm) ∧
    (∀ ra imm, decode w = .ok (.mw ra imm) ↔
      w &&& 0xF000 = 0x6000 ∧ w.extractLsb' 8 4 = ra ∧ w.extractLsb' 0 8 = imm) ∧
    (∀ ra off, decode w = .ok (.bez ra off) ↔
      w &&& 0xF000 = 0x7000 ∧ w.extractLsb' 8 4 = ra ∧ w.extractLsb' 0 8 = off) ∧
    (∀ target, decode w = .ok (.j target) ↔ w &&& 0xF000 = 0x8000 ∧ w.extractLsb' 0 12 = target) ∧
    ((∃ e, decode w = .error e) ↔ ∀ p ∈ rowPatterns, w &&& p.2 ≠ p.1) ∧
    (rowPatterns.filter (fun p => w &&& p.2 == p.1)).length ≤ 1

/-- A few words of the spec's examples decode as the spec says (95_test_vectors.md). -/
def Obligations.SpecWordsDecodeAsTheSpecSays : Prop :=
  decode 0x0000 = .ok .halt ∧ decode 0x0318 = .ok (.add 3 1) ∧ decode 0x0011 = .ok (.sub 0 1) ∧
  decode 0x0322 = .ok (.nor 3 2) ∧ decode 0x1005 = .ok (.li 0 5) ∧ decode 0x2305 = .ok (.mr 3 5) ∧
  decode 0x43FF = .ok (.addi 3 0xFF) ∧ decode 0x6203 = .ok (.mw 2 3) ∧ decode 0x71FE = .ok (.bez 1 0xFE) ∧
  decode 0x8ABC = .ok (.j 0xABC) ∧ decode 0x0120 = .error (.illegalFunction 0) ∧
  decode 0x3000 = .error (.illegalOpcode 3)

/-- The illegal words are those of the nine unused opcodes and those of opcode `0000` with an unused function, but for
the halt word, and the decoder's rejection names which (30_encoding.md section 4). -/
def Obligations.IllegalWordsAreThoseTheSpecLists : Prop :=
  ∀ w : Word,
    ((∃ op, decode w = .error (.illegalOpcode op)) ↔ (w.extractLsb' 12 4).toNat ∈ [3, 5, 9, 10, 11, 12, 13, 14, 15]) ∧
    ((∃ fn, decode w = .error (.illegalFunction fn)) ↔
      (w.extractLsb' 12 4).toNat = 0 ∧ (w.extractLsb' 0 4).toNat ∉ [8, 1, 2] ∧ w ≠ 0x0000) ∧
    (∀ op, decode w = .error (.illegalOpcode op) → op = w.extractLsb' 12 4) ∧
    (∀ fn, decode w = .error (.illegalFunction fn) → fn = w.extractLsb' 0 4)

/-- R102: step 2 extracts these fields from every word, and the datapath of a decoded instruction uses them. -/
def Obligations.FieldsAreThoseOfTheInstructionWord : Prop :=
  (∀ ins : Word,
    (fieldsOf ins).opfunc = ins.extractLsb' 12 4 ++ ins.extractLsb' 0 4 ∧
    (fieldsOf ins).addrA = 0#1 ++ ins.extractLsb' 8 4 ∧
    (fieldsOf ins).addrB = 0#1 ++ ins.extractLsb' 4 4 ∧
    (fieldsOf ins).addrJ = ins.extractLsb' 0 12 ∧
    (fieldsOf ins).immediate16 = (ins.extractLsb' 0 8).signExtend 16) ∧
  (∀ (ins : Word) (i : Instr), decode ins = .ok i → instrFields i = fieldsOf ins)

/-- R55: the signed value of the 5-bit register address is the unsigned 4-bit field, 0 to 15, and the register read is
the one of that number. -/
def Obligations.RegisterAddressIsTheUnsignedField : Prop :=
  ∀ ins : Word,
    toInteger (fieldsOf ins).addrA = ((ins.extractLsb' 8 4).toNat : Int) ∧
    toInteger (fieldsOf ins).addrB = ((ins.extractLsb' 4 4).toNat : Int) ∧
    (regOfAddr (fieldsOf ins).addrA).toNat = (ins.extractLsb' 8 4).toNat ∧
    (regOfAddr (fieldsOf ins).addrB).toNat = (ins.extractLsb' 4 4).toNat ∧
    (ins.extractLsb' 8 4).toNat < 16 ∧ (ins.extractLsb' 4 4).toNat < 16

/-! ### The step -/

/-- A step of a RUNNING machine is `exec` of the instruction the fetched word decodes to; nothing is added around it. -/
def Obligations.StepRunsTheDecodedInstruction : Prop :=
  ∀ (s : State) (i : Instr), s.run = .running → decode s.ifetch = .ok i → step s = exec i s

/-- R113: a clock pulse does what the spec's one function of the whole cycle does, under every `MCW_TABLE`. In it the
polarity of the multiplexers, the outcome of a decode failure and the pulse of a stopped machine are the spec's decisions
D7, D8 and D10 (logs 13, 6 and 7). -/
def Obligations.TickIsTheCycleFunction : Prop :=
  ∀ s : State, tick s = tickR113 s

/-- R101: the fetch is the word of instruction memory at the signed `pc`, or zero out of range; a zero word halts, changes
nothing else, and the pulse returns false. -/
def Obligations.ZeroFetchHalts : Prop :=
  ∀ s : State,
    s.ifetch = (if 0 ≤ s.pc.toInt ∧ s.pc.toInt < (s.params.imemCap : Int) then Memory.read s.imem s.pc.toInt.toNat
      else 0x0000) ∧
    (s.run = .running → s.ifetch = 0x0000 →
      step s = .next { s with run := .halted } ∧ (tick s).running = false ∧
        (tick s).state = { s with run := .halted })

/-- A machine that is not RUNNING changes nothing at any pulse and returns false (the spec's decision D10, log 7). -/
def Obligations.StoppedMachineIgnoresTheClock : Prop :=
  ∀ s : State, s.run ≠ .running →
    step s = .next s ∧ (tick s).running = false ∧ ∀ n, hostActs (List.replicate n HostInput.clk) s = s

/-- A decode failure: the step faults with `pc` and the word; the state left differs in `run = FAULTED` only; the
diagnostic ports show the pair (the spec's decision D8, logs 6 and 11). -/
def Obligations.DecodeFailureFaultsAndChangesOnlyRun : Prop :=
  ∀ s : State, s.run = .running → s.ifetch ≠ 0x0000 →
    controllerDecode (s.ifetch.extractLsb' 12 4) (s.ifetch.extractLsb' 0 4) = none →
      step s = .fault (.illegalInstruction s.pc s.ifetch) ∧
      (tick s).state = { s with run := .faulted } ∧ (tick s).running = false ∧
      (tick s).diagnostic = some (s.pc, s.ifetch) ∧
      (tick s).state.faultDiagnostic = some (s.pc, s.ifetch)

/-- R144: the order of the terminating conditions, and nothing past them stops a cycle, under every `MCW_TABLE`. -/
def Obligations.TerminatingConditionsInOrder : Prop :=
  (∀ s : State, s.run ≠ .running → step s = .next s) ∧
  (∀ s : State, s.run = .running → s.ifetch = 0x0000 → step s = .next { s with run := .halted }) ∧
  (∀ s : State, s.run = .running → inRange s.params.imemCap s.pc = false → step s = .next { s with run := .halted }) ∧
  (∀ s : State, s.run = .running → s.ifetch ≠ 0x0000 →
    controllerDecode (opcodeField s.ifetch) (funcField s.ifetch) = none →
      step s = .fault (.illegalInstruction s.pc s.ifetch)) ∧
  (∀ (s : State) (op : Op), s.run = .running → s.ifetch ≠ 0x0000 →
    controllerDecode (opcodeField s.ifetch) (funcField s.ifetch) = some op →
      ∃ t, step s = .next t ∧ t.run = .running) ∧
  controllerDecode 0b0000 0b0000 = none ∧
  (∀ (i : Instr) (s : State), ∃ t, exec i s = .next t)

/-- The boolean a pulse returns is the `running` port after it; a diagnostic raised stays on the diagnostic ports however
often the clock is pulsed (70_reset_and_hazards.md section 5, the spec's decision D11). -/
def Obligations.PortsAgreeWithTheTick : Prop :=
  ∀ s : State,
    (tick s).running = (tick s).state.runningPort ∧
    ∀ d, (tick s).diagnostic = some d →
      ∀ n, (hostActs (List.replicate n HostInput.clk) (tick s).state).faultDiagnostic = some d ∧
        (hostActs (List.replicate n HostInput.clk) (tick s).state).faultedPort = true

/-- `run()` under fuel is that many clock pulses: repeated pulses while RUNNING, and none after it changes anything (R114;
a pulse of a stopped machine is the spec's decision D10, log 7). More fuel continues the run, and once it has stopped it
stays. A run that ends HALTED leaves `pc` at an address whose fetch is the halt word or out of range, and everything but
`run` as the last executed cycle left it; one that ends FAULTED (the spec's decision D8, log 6) is no normal end, and
leaves `pc` at the illegal word (R115, which the spec derives). -/
def Obligations.RunContinuesAndStops : Prop :=
  (∀ (n : Nat) (s : State), runFor n s = hostActs (List.replicate n HostInput.clk) s) ∧
  (∀ (m n : Nat) (s : State), runFor (m + n) s = runFor n (runFor m s)) ∧
  (∀ (n : Nat) (s : State), s.run ≠ .running → runFor n s = s) ∧
  (∀ (n k : Nat) (s : State), (runFor n s).run ≠ .running → runFor (n + k) s = runFor n s) ∧
  (∀ (n : Nat) (s : State), s.run = .running → (runFor n s).EndedNormally →
    (runFor n s).ifetch = 0x0000 ∧
    ∃ k, k < n ∧ (runFor k s).run = .running ∧ runFor n s = { runFor k s with run := .halted }) ∧
  (∀ (n : Nat) (s : State), s.run = .running → (runFor n s).run = .faulted →
    ¬(runFor n s).EndedNormally ∧ (runFor n s).ifetch ≠ 0x0000 ∧
    controllerDecode (opcodeField (runFor n s).ifetch) (funcField (runFor n s).ifetch) = none ∧
    ∃ k, k < n ∧ (runFor k s).run = .running ∧ runFor n s = { runFor k s with run := .faulted })

/-- A run is still RUNNING exactly while every pulse so far fetched a word of the decode table; a jump to itself and a
taken branch by 0, the examples of 42_cycle.md section 4, never end (under the default control words, the spec's decision
D6, log 4). -/
def Obligations.RunEndsOnlyAtHaltOrIllegalWord : Prop :=
  (∀ (n : Nat) (s : State), s.run = .running →
    ((runFor n s).run = .running ↔
      ∀ k, k < n →
        (controllerDecode (opcodeField (runFor k s).ifetch) (funcField (runFor k s).ifetch)).isSome = true)) ∧
  (∀ (n : Nat) (s : State) (target : BitVec 12), s.UsesDefaultTable → s.run = .running →
    decode s.ifetch = .ok (.j target) → s.pc.extractLsb' 0 12 = target → runFor n s = s) ∧
  (∀ (n : Nat) (s : State) (ra : RegIdx), s.UsesDefaultTable → s.run = .running →
    decode s.ifetch = .ok (.bez ra 0) → s.readReg ra = 0x0000 → runFor n s = s)

/-! ### The instructions: syntax, encoding, control word, effect -/

/-- R120, ADD. -/
def Obligations.AddAddsRegisters : Prop :=
  ∀ ra rb : RegIdx,
    asmInstr (.add ra.toNat rb.toNat) = some (.add ra rb) ∧
    encode (.add ra rb) = ((0b0000#4 ++ ra ++ rb ++ 0b1000#4 : BitVec (4 + 4 + 4 + 4)) : Word) ∧
    mcwBits (controlWord defaultMcwTable .add) = 0b000000011#9 ∧
    ∀ s : State, s.UsesDefaultTable →
      exec (.add ra rb) s =
        .next { s with regs := s.regs.set ra.toNat (s.readReg ra + s.readReg rb) ra.isLt, pc := s.pc + 1 }

/-- R121, SUB. -/
def Obligations.SubSubtractsRegisters : Prop :=
  ∀ ra rb : RegIdx,
    asmInstr (.sub ra.toNat rb.toNat) = some (.sub ra rb) ∧
    encode (.sub ra rb) = ((0b0000#4 ++ ra ++ rb ++ 0b0001#4 : BitVec (4 + 4 + 4 + 4)) : Word) ∧
    mcwBits (controlWord defaultMcwTable .sub) = 0b000001011#9 ∧
    ∀ s : State, s.UsesDefaultTable →
      exec (.sub ra rb) s =
        .next { s with regs := s.regs.set ra.toNat (s.readReg ra - s.readReg rb) ra.isLt, pc := s.pc + 1 }

/-- R122, NOR. -/
def Obligations.NorNorsRegisters : Prop :=
  ∀ ra rb : RegIdx,
    asmInstr (.nor ra.toNat rb.toNat) = some (.nor ra rb) ∧
    encode (.nor ra rb) = ((0b0000#4 ++ ra ++ rb ++ 0b0010#4 : BitVec (4 + 4 + 4 + 4)) : Word) ∧
    mcwBits (controlWord defaultMcwTable .nor) = 0b000010011#9 ∧
    ∀ s : State, s.UsesDefaultTable →
      exec (.nor ra rb) s =
        .next { s with regs := s.regs.set ra.toNat (~~~(s.readReg ra ||| s.readReg rb)) ra.isLt, pc := s.pc + 1 }

/-- LI adds its immediate to the register: the control word is the spec's decision D6 (log 4; 43_arith.md, LI). -/
def Obligations.LiAddsTheImmediate : Prop :=
  ∀ (ra : RegIdx) (imm : BitVec 8),
    asmInstr (.li ra.toNat imm.toInt) = some (.li ra imm) ∧
    encode (.li ra imm) = ((0b0001#4 ++ ra ++ imm : BitVec (4 + 4 + 8)) : Word) ∧
    mcwBits (controlWord defaultMcwTable .li) = 0b000100011#9 ∧
    ∀ s : State, s.UsesDefaultTable →
      exec (.li ra imm) s =
        .next { s with regs := s.regs.set ra.toNat (s.readReg ra + imm.signExtend 16) ra.isLt, pc := s.pc + 1 }

/-- R124, ADDI. -/
def Obligations.AddiAddsTheImmediate : Prop :=
  ∀ (ra : RegIdx) (imm : BitVec 8),
    asmInstr (.addi ra.toNat imm.toInt) = some (.addi ra imm) ∧
    encode (.addi ra imm) = ((0b0100#4 ++ ra ++ imm : BitVec (4 + 4 + 8)) : Word) ∧
    mcwBits (controlWord defaultMcwTable .addi) = 0b000100011#9 ∧
    ∀ s : State, s.UsesDefaultTable →
      exec (.addi ra imm) s =
        .next { s with regs := s.regs.set ra.toNat (s.readReg ra + imm.signExtend 16) ra.isLt, pc := s.pc + 1 }

/-- MR reads at the old `mar`, zero out of range, and loads `mar` from the old register: the control word is the spec's
decision D6 (log 4; 44_memory_ops.md, MR). -/
def Obligations.MrReadsAtOldMarAndLoadsMar : Prop :=
  ∀ (ra : RegIdx) (imm : BitVec 8),
    asmInstr (.mr ra.toNat imm.toInt) = some (.mr ra imm) ∧
    encode (.mr ra imm) = ((0b0010#4 ++ ra ++ imm : BitVec (4 + 4 + 8)) : Word) ∧
    mcwBits (controlWord defaultMcwTable .mr) = 0b000100110#9 ∧
    ∀ s : State, s.UsesDefaultTable →
      exec (.mr ra imm) s =
        .next
          { s with
            regs :=
              s.regs.set ra.toNat
                (if 0 ≤ s.mar.toInt ∧ s.mar.toInt < (s.params.dmemCap : Int) then Memory.read s.dmem s.mar.toInt.toNat
                  else 0x0000)
                ra.isLt
            mar := s.readReg ra + imm.signExtend 16
            pc := s.pc + 1 }

/-- MW stores at the old `mar`, nothing out of range, and loads `mar`: the control word is the spec's decision D6 (log 4;
44_memory_ops.md, MW). -/
def Obligations.MwStoresAtOldMarAndLoadsMar : Prop :=
  ∀ (ra : RegIdx) (imm : BitVec 8),
    asmInstr (.mw ra.toNat imm.toInt) = some (.mw ra imm) ∧
    encode (.mw ra imm) = ((0b0110#4 ++ ra ++ imm : BitVec (4 + 4 + 8)) : Word) ∧
    mcwBits (controlWord defaultMcwTable .mw) = 0b001100100#9 ∧
    ∀ s : State, s.UsesDefaultTable →
      exec (.mw ra imm) s =
        .next
          { s with
            dmem :=
              if 0 ≤ s.mar.toInt ∧ s.mar.toInt < (s.params.dmemCap : Int) then
                Memory.write s.dmem s.mar.toInt.toNat (s.readReg ra)
              else s.dmem
            mar := s.readReg ra + imm.signExtend 16
            pc := s.pc + 1 }

/-- R135, BEZ; a target out of range is no error at the branch, the next step halts there. -/
def Obligations.BezBranchesOnZero : Prop :=
  ∀ (ra : RegIdx) (off : BitVec 8),
    asmInstr (.bez ra.toNat off.toInt) = some (.bez ra off) ∧
    encode (.bez ra off) = ((0b0111#4 ++ ra ++ off : BitVec (4 + 4 + 8)) : Word) ∧
    mcwBits (controlWord defaultMcwTable .bez) = 0b010000000#9 ∧
    ∀ s : State, s.UsesDefaultTable →
      exec (.bez ra off) s =
        .next { s with pc := if s.readReg ra = 0x0000 then s.pc + off.signExtend 16 else s.pc + 1 } ∧
      ∀ t, exec (.bez ra off) s = .next t → s.run = .running → inRange t.params.imemCap t.pc = false →
        step t = .next { t with run := .halted }

/-- R136, J: the page is that of the jump itself; with at most 4096 words of instruction memory the target is absolute; a
target out of range halts at the next step. -/
def Obligations.JumpStaysInItsPage : Prop :=
  ∀ target : BitVec 12,
    asmInstr (.j target.toNat) = some (.j target) ∧
    encode (.j target) = ((0b1000#4 ++ target : BitVec (4 + 12)) : Word) ∧
    mcwBits (controlWord defaultMcwTable .j) = 0b100000000#9 ∧
    ∀ s : State, s.UsesDefaultTable →
      exec (.j target) s = .next { s with pc := ((s.pc.extractLsb' 12 4 ++ target : BitVec (4 + 12)) : Word) } ∧
      ∀ t, exec (.j target) s = .next t →
        t.pc.extractLsb' 12 4 = s.pc.extractLsb' 12 4 ∧
        (s.params.imemCap ≤ 4096 → inRange s.params.imemCap s.pc = true → t.pc = target.setWidth 16) ∧
        (s.run = .running → inRange t.params.imemCap t.pc = false → step t = .next { t with run := .halted })

/-- R137, HALT: only the all-zero word, no row of the table; only `run` changes; a `pc` that addresses no word halts the
same way; the pulse returns false and the state is terminal until `reset`. -/
def Obligations.HaltStopsUntilReset : Prop :=
  asmInstr .halt = some .halt ∧ assemble (.word 0) = some (encode .halt) ∧ encode .halt = 0x0000 ∧
  controllerDecode 0b0000 0b0000 = none ∧
  (∀ w : Word, decode w = .ok .halt ↔ w = 0x0000) ∧
  (∀ s : State, exec .halt s = .next { s with run := .halted }) ∧
  (∀ s : State, s.run = .running → (s.ifetch = 0x0000 ∨ inRange s.params.imemCap s.pc = false) →
    tick s = { state := { s with run := .halted }, running := false, diagnostic := none }) ∧
  (∀ s : State, s.run = .halted →
    hostAct .clk s = s ∧ (hostAct .clearData s).run = .halted ∧ (hostAct .reset s).run = .running)

/-! ### Frames -/

/-- The register-only instructions, `x[0]` included as any other register (R11): the destination holds the ALU result and
everything else but `pc` is unchanged. -/
def Obligations.ArithmeticFrame : Prop :=
  ∀ (s : State) (ra rb : RegIdx) (imm : BitVec 8), s.UsesDefaultTable →
    ∀ p ∈ [(Instr.add ra rb, s.readReg ra + s.readReg rb), (Instr.sub ra rb, s.readReg ra - s.readReg rb),
        (Instr.nor ra rb, ~~~(s.readReg ra ||| s.readReg rb)), (Instr.li ra imm, s.readReg ra + imm.signExtend 16),
        (Instr.addi ra imm, s.readReg ra + imm.signExtend 16)],
      ∃ t, exec p.1 s = .next t ∧ t.readReg ra = p.2 ∧
        (∀ q, q ≠ ra → t.readReg q = s.readReg q) ∧
        t.mar = s.mar ∧ t.run = s.run ∧ t.params = s.params ∧
        (∀ k, Memory.read t.dmem k = Memory.read s.dmem k) ∧ (∀ k, Memory.read t.imem k = Memory.read s.imem k)

/-- MR: its register and `mar` change, no memory word does. -/
def Obligations.MemoryReadFrame : Prop :=
  ∀ (s : State) (ra : RegIdx) (imm : BitVec 8), s.UsesDefaultTable →
    ∃ t, exec (.mr ra imm) s = .next t ∧ t.readReg ra = s.memRead s.mar ∧
      (∀ q, q ≠ ra → t.readReg q = s.readReg q) ∧ t.run = s.run ∧ t.params = s.params ∧
      (∀ k, Memory.read t.dmem k = Memory.read s.dmem k) ∧ (∀ k, Memory.read t.imem k = Memory.read s.imem k)

/-- MW: no register changes, and no word of data memory but the one that the old `mar` addresses, if it addresses one. -/
def Obligations.MemoryWriteFrame : Prop :=
  ∀ (s : State) (ra : RegIdx) (imm : BitVec 8), s.UsesDefaultTable →
    ∃ t, exec (.mw ra imm) s = .next t ∧
      (∀ q, t.readReg q = s.readReg q) ∧ t.run = s.run ∧ t.params = s.params ∧
      (inRange s.params.dmemCap s.mar = true → Memory.read t.dmem (cellIndex s.mar) = s.readReg ra) ∧
      (∀ k, ¬(inRange s.params.dmemCap s.mar = true ∧ k = cellIndex s.mar) →
        Memory.read t.dmem k = Memory.read s.dmem k) ∧
      (∀ k, Memory.read t.imem k = Memory.read s.imem k)

/-- BEZ, J and HALT: no register, no `mar`, no memory word; BEZ and J keep `run`, HALT keeps `pc`. -/
def Obligations.ControlFrame : Prop :=
  ∀ (s : State) (ra : RegIdx) (off : BitVec 8) (target : BitVec 12), s.UsesDefaultTable →
    ∀ i ∈ [Instr.bez ra off, Instr.j target, Instr.halt],
      ∃ t, exec i s = .next t ∧ (∀ q, t.readReg q = s.readReg q) ∧ t.mar = s.mar ∧ t.params = s.params ∧
        (i ≠ .halt → t.run = s.run) ∧ (i = .halt → t.pc = s.pc ∧ t.run = .halted) ∧
        (∀ k, Memory.read t.dmem k = Memory.read s.dmem k) ∧ (∀ k, Memory.read t.imem k = Memory.read s.imem k)

/-! ### Whole-machine rules -/

/-- R13: under every `MCW_TABLE`, the one write port writes the register of `ins[11:8]`, with the writeback value of R110,
iff the control word has RegWrite (which input a select of 0 takes is the spec's decision D7, log 13); the halt word
writes none; with the default words (decision D6, log 4) six instructions write a register, the others none; of the
host's inputs only `reset` writes registers outside a cycle, and it zeroes them. -/
def Obligations.OneWritePortForRegisterA : Prop :=
  (∀ (i : Instr) (s t : State), exec i s = .next t → ∀ q, t.readReg q ≠ s.readReg q →
    q = (encode i).extractLsb' 8 4 ∧
      ∃ op, instrOp i = some op ∧ (controlWord s.params.mcwTable op).regWrite = true) ∧
  (∀ (i : Instr) (op : Op) (s : State), instrOp i = some op →
    let c := controlWord s.params.mcwTable op
    let a : RegIdx := (encode i).extractLsb' 8 4
    let rb := s.readReg ((encode i).extractLsb' 4 4)
    let aluResult := aluOperate c.aluOp (s.readReg a) (mux c.aluSrc rb (((encode i).extractLsb' 0 8).signExtend 16))
    let memReadValue := (if c.memWrite then s.memWrite s.mar (s.readReg a) else s).memRead s.mar
    ∃ t, exec i s = .next t ∧
      t.regs = if c.regWrite then s.regs.set a.toNat (mux c.regDst memReadValue aluResult) a.isLt else s.regs) ∧
  (∀ s t : State, exec .halt s = .next t → t.regs = s.regs) ∧
  (∀ op, (controlWord defaultMcwTable op).regWrite = true ↔
    op = .add ∨ op = .sub ∨ op = .nor ∨ op = .li ∨ op = .addi ∨ op = .mr) ∧
  instrOp .halt = none ∧
  (∀ (s : State) (r : RegIdx), (hostAct .reset s).readReg r = 0x0000) ∧
  (∀ s : State, (hostAct .clearData s).regs = s.regs)

/-- R14: how `pc` advances, in every case, and a `pc` of `0x8000` or more halts. -/
def Obligations.ProgramCounterAdvance : Prop :=
  ∀ s : State, s.UsesDefaultTable → s.params.wf →
    (∀ i, s.run = .running → decode s.ifetch = .ok i → ∃ t, step s = .next t ∧ t.pc = nextPcR14 i s) ∧
    (∀ e, s.run = .running → decode s.ifetch = .error e → (tick s).state.pc = s.pc) ∧
    (s.run ≠ .running → (tick s).state.pc = s.pc) ∧
    (s.run = .running → 0x8000 ≤ s.pc.toNat → step s = .next { s with run := .halted })

/-- Under the default control words `mar` is written by MR and MW only, with the ALU result of the old register; under
any table only where MARwrite is set (10_state.md section 4; the MARwrite bits are the spec's decision D6, log 4). -/
def Obligations.MarIsWrittenByMemoryInstructionsOnly : Prop :=
  (∀ (i : Instr) (s t : State), exec i s = .next t → t.mar ≠ s.mar →
    ∃ op, instrOp i = some op ∧ (controlWord s.params.mcwTable op).marWrite = true) ∧
  (∀ (i : Instr) (s t : State), s.UsesDefaultTable → exec i s = .next t → isMemoryInstr i = false → t.mar = s.mar) ∧
  (∀ (ra : RegIdx) (imm : BitVec 8) (s t : State), s.UsesDefaultTable →
    (exec (.mr ra imm) s = .next t ∨ exec (.mw ra imm) s = .next t) → t.mar = s.readReg ra + imm.signExtend 16)

/-- The data address is delayed by one memory instruction: an access uses the `mar` left by the last MR or MW, any number
of other instructions between, or zero if there was none since reset (70_reset_and_hazards.md section 3; the control
words are the spec's decision D6, log 4). -/
def Obligations.DataAddressIsDelayedByOneAccess : Prop :=
  (∀ (s0 s1 s2 : State) (a : RegIdx) (imm : BitVec 8) (is : List Instr), s0.UsesDefaultTable →
    (exec (.mr a imm) s0 = .next s1 ∨ exec (.mw a imm) s0 = .next s1) →
    (∀ i ∈ is, isMemoryInstr i = false) → execAll is s1 = some s2 →
      ∀ (b : RegIdx) (imm' : BitVec 8),
        (∃ t, exec (.mr b imm') s2 = .next t ∧ t.readReg b = s2.memRead (s0.readReg a + imm.signExtend 16)) ∧
        (∃ t, exec (.mw b imm') s2 = .next t ∧
          t.dmem = Memory.writeAt s2.params.dmemCap s2.dmem (s0.readReg a + imm.signExtend 16) (s2.readReg b))) ∧
  (∀ (s s2 : State) (is : List Instr), s.UsesDefaultTable → (∀ i ∈ is, isMemoryInstr i = false) →
    execAll is (hostAct .reset s) = some s2 → s2.mar = 0x0000)

/-- What the instructions other than MR and MW compute does not depend on `mar` or data memory (the control words are the
spec's decision D6, log 4). -/
def Obligations.OtherInstructionsIgnoreDataMemory : Prop :=
  ∀ (i : Instr) (s : State) (m : Word) (d : Memory), s.UsesDefaultTable → isMemoryInstr i = false →
    ∃ t u, exec i s = .next t ∧ exec i { s with mar := m, dmem := d } = .next u ∧
      u.regs = t.regs ∧ u.pc = t.pc ∧ u.run = t.run ∧ u.mar = m ∧ u.dmem = d

/-- R44: no store is seen by fetch; instruction memory is its image after any sequence of host inputs from power-on, and
only `reset` loads it. -/
def Obligations.InstructionMemoryIsItsImage : Prop :=
  (∀ (s : State) (a v b : Word), (s.memWrite a v).imemAt b = s.imemAt b) ∧
  (∀ (i : Instr) (s t : State), exec i s = .next t → t.imem = s.imem) ∧
  (∀ (i : HostInput) (s : State), i ≠ .reset → (hostAct i s).imem = s.imem) ∧
  (∀ s : State, (hostAct .reset s).imem = s.params.imemInit) ∧
  (∀ (p : Params) (is : List HostInput), (hostActs is (State.powerOn p)).imem = p.imemInit)

/-- No step and no host input changes the parameters, so the default control words stay the machine's (00_scope.md
section 4; log 5). -/
def Obligations.ParametersNeverChange : Prop :=
  (∀ s t : State, step s = .next t → t.params = s.params) ∧
  (∀ (is : List HostInput) (s : State), (hostActs is s).params = s.params)

/-! ### Memory -/

/-- R32: a read gives the word at the signed address, or zero out of range, in both memories. -/
def Obligations.ReadsGiveTheWordOrZero : Prop :=
  ∀ (s : State) (a : Word),
    s.memRead a =
      (if 0 ≤ a.toInt ∧ a.toInt < (s.params.dmemCap : Int) then Memory.read s.dmem a.toInt.toNat else 0x0000) ∧
    s.imemAt a =
      (if 0 ≤ a.toInt ∧ a.toInt < (s.params.imemCap : Int) then Memory.read s.imem a.toInt.toNat else 0x0000)

/-- R33: a write in range is read back unchanged and leaves every other word; out of range it does nothing; no other state
changes. -/
def Obligations.WritesAreReadBackAndLocal : Prop :=
  ∀ (s : State) (a v : Word),
    (0 ≤ a.toInt ∧ a.toInt < (s.params.dmemCap : Int) →
      (s.memWrite a v).memRead a = v ∧
      (∀ b, b ≠ a → (s.memWrite a v).memRead b = s.memRead b) ∧
      (∀ k, k ≠ a.toInt.toNat → Memory.read (s.memWrite a v).dmem k = Memory.read s.dmem k)) ∧
    (¬(0 ≤ a.toInt ∧ a.toInt < (s.params.dmemCap : Int)) → s.memWrite a v = s) ∧
    s.memWrite a v = { s with dmem := (s.memWrite a v).dmem }

/-- An address with bit 15 set is out of range, so with a capacity the spec allows the signed range test is the unsigned
one (20_memory.md section 2, the spec's decision D5, log 8). -/
def Obligations.SignedRangeTestIsUnsigned : Prop :=
  ∀ (cap : Nat) (a : Word),
    (a.msb = true → inRange cap a = false) ∧
    (cap ≤ 32768 → (inRange cap a = true ↔ a.toNat < cap)) ∧
    (inRange cap a = true → cellIndex a = a.toNat)

/-- R41: in one cycle the write comes before the read, both at the old `mar`: a control word that stores and selects the
memory value reads back what it stored; no default word does both. -/
def Obligations.SameCycleWriteIsRead : Prop :=
  (∀ (c : Mcw) (f : Fields) (s : State), c.memWrite = true → c.regWrite = true → c.regDst = false →
    (inRange s.params.dmemCap s.mar = true →
      (State.cycle c f s).memRead s.mar = s.readReg (regOfAddr f.addrA) ∧
      (State.cycle c f s).readReg (regOfAddr f.addrA) = s.readReg (regOfAddr f.addrA)) ∧
    (inRange s.params.dmemCap s.mar = false →
      (State.cycle c f s).dmem = s.dmem ∧ (State.cycle c f s).readReg (regOfAddr f.addrA) = 0x0000)) ∧
  (∀ op, ¬((controlWord defaultMcwTable op).memWrite = true ∧ (controlWord defaultMcwTable op).regWrite = true))

/-- The loader: a loaded image is canonical and holds line by line the word of the line, left-padded or cut to its first
16 characters; exactly a character other than `0` and `1` in a line within the capacity refuses the image (20_memory.md
section 12; log 15). -/
def Obligations.LoadedImageHoldsItsLines : Prop :=
  (∀ (cap : Nat) (lines : List (List Char)) (m : Memory), loadImage cap lines = some m →
    Memory.wf cap m ∧
      ∀ k, Memory.read m k = if k < cap then ((lines[k]?).bind lineWord).getD 0x0000 else 0x0000) ∧
  (∀ (cap : Nat) (lines : List (List Char)), loadImage cap lines = none ↔ ∃ l ∈ lines.take cap, lineWord l = none) ∧
  (∀ cs : List Char, lineWord cs = none ↔ ∃ c ∈ cs, c ≠ '0' ∧ c ≠ '1') ∧
  (∀ (cs : List Char) (w : Word), lineWord cs = some w → ∀ i, i < 16 →
    w.getLsbD i = decide (i < min 16 cs.length ∧ cs[min 16 cs.length - 1 - i]? = some '1'))

/-! ### Reset and invariants -/

/-- R22, R161: the `reset` input from any state; it is the only exit from a stopped state. -/
def Obligations.ResetInputRestartsTheMachine : Prop :=
  (∀ s : State,
    (∀ r, (hostAct .reset s).readReg r = 0x0000) ∧ (hostAct .reset s).pc = 0x0000 ∧
    (hostAct .reset s).mar = 0x0000 ∧ (hostAct .reset s).run = .running ∧
    (hostAct .reset s).imem = s.params.imemInit ∧ (hostAct .reset s).dmem = s.dmem ∧
    (hostAct .reset s).params = s.params) ∧
  (∀ s : State, (hostAct .reset s).imemAt 0x0000 = 0x0000 →
    step (hostAct .reset s) = .next { hostAct .reset s with run := .halted }) ∧
  (∀ (i : HostInput) (s : State), s.run ≠ .running → (hostAct i s).run = .running → i = .reset)

/-- R24, R162: `clearData` zeroes every word of data memory and changes nothing else. -/
def Obligations.ClearDataZeroesDataMemoryOnly : Prop :=
  ∀ s : State,
    (∀ a, (hostAct .clearData s).memRead a = 0x0000) ∧
    (∀ k, Memory.read (hostAct .clearData s).dmem k = 0x0000) ∧
    hostAct .clearData s = { s with dmem := (hostAct .clearData s).dmem }

/-- Power-on: registers, `pc` and `mar` zero (the spec's decision D9, log 10), RUNNING, both memories their images. -/
def Obligations.PowerOnState : Prop :=
  ∀ p : Params,
    (∀ r, (State.powerOn p).readReg r = 0x0000) ∧ (State.powerOn p).pc = 0x0000 ∧ (State.powerOn p).mar = 0x0000 ∧
    (State.powerOn p).run = .running ∧ (State.powerOn p).imem = p.imemInit ∧ (State.powerOn p).dmem = p.dmemInit ∧
    (p.wf → (State.powerOn p).Inv)

/-- The reset state meets the invariant and uses the default control words (its parameters are logs 2, 3 and 4). -/
def Obligations.ResetStateMeetsTheInvariant : Prop :=
  State.reset.Inv ∧ State.reset.UsesDefaultTable

/-- Every step keeps the invariant: well-formed parameters, data memory canonical within its capacity, instruction memory
its image. -/
def Obligations.StepKeepsTheInvariant : Prop :=
  ∀ s t : State, s.Inv → step s = .next t → t.Inv

/-- Every host input keeps the invariant, from every state that meets it; so it holds after any sequence of host inputs
from power-on, with images and capacities the spec allows. -/
def Obligations.HostInputsKeepTheInvariant : Prop :=
  (∀ (i : HostInput) (s : State), s.Inv → (hostAct i s).Inv) ∧
  (∀ (p : Params) (is : List HostInput), p.wf → (hostActs is (State.powerOn p)).Inv)

/-! ### Primitives -/

/-- R70: `toInteger` is the two's-complement value. -/
def Obligations.ToIntegerIsTwosComplement : Prop :=
  ∀ (n : Nat) (w : BitVec n), 0 < n →
    toInteger w = w.toInt ∧
    (w.msb = false → toInteger w = (w.toNat : Int)) ∧
    (w.msb = true → toInteger w = (w.toNat : Int) - 2 ^ n ∧ toInteger w = -((negate w).toNat : Int)) ∧
    -(2 ^ (n - 1) : Int) ≤ toInteger w ∧ toInteger w ≤ 2 ^ (n - 1) - 1 ∧
    (toInteger w = 0 ↔ ∀ i, w.getLsbD i = false) ∧
    toInteger (0x8000#16) = -32768

/-- `fromInteger` gives the value modulo `2^n` where the magnitude fits and refuses otherwise (the spec's decision D14,
log 14), and is inverse to `toInteger` on 16-bit words (40_primitives.md section 1). -/
def Obligations.FromIntegerRoundTrip : Prop :=
  (∀ (n : Nat) (v : Int), v.natAbs ≤ 2 ^ n - 1 →
    ∃ w, fromInteger n v = some w ∧ (w.toNat : Int) = v % 2 ^ n) ∧
  (∀ (n : Nat) (v : Int), 2 ^ n - 1 < v.natAbs → fromInteger n v = none) ∧
  (∀ a : Word, fromInteger 16 (toInteger a) = some a) ∧
  fromInteger 16 1 = some 0x0001#16

/-- R72: the source's scan for the lowest set bit is two's-complement negation, with its laws and examples. -/
def Obligations.NegateIsTheBitScan : Prop :=
  (∀ (n : Nat) (w : BitVec n), negateByScan w = negate w) ∧
  (∀ (n : Nat) (w : BitVec n), (negate w).toNat = (2 ^ n - w.toNat) % 2 ^ n) ∧
  (∀ n : Nat, negate (0#n) = 0#n) ∧
  (∀ (n : Nat) (w : BitVec n), negate (negate w) = w) ∧
  (∀ n : Nat, negate (BitVec.intMin n) = BitVec.intMin n) ∧
  (∀ (n : Nat) (w : BitVec n), w ≠ BitVec.intMin n → toInteger (negate w) = -toInteger w) ∧
  negate 0x8000#16 = 0x8000#16 ∧ negate 0x0001#16 = 0xFFFF#16 ∧ negate 0x0003#16 = 0xFFFD#16 ∧
  negate 0x0014#16 = 0xFFEC#16 ∧ negate 0xFFFF#16 = 0x0001#16

/-- The ripple adder of the full-adder equations (which the spec supplies from general knowledge, log 18), its carry out
dropped, is the sum modulo `2^n` (40_primitives.md section 2). -/
def Obligations.RippleAdderIsTheModularSum : Prop :=
  ∀ (n : Nat) (a b : BitVec n),
    rippleAdd a b = addWords a b ∧
    (addWords a b).toNat = (a.toNat + b.toNat) % 2 ^ n ∧
    fromInteger n ((toInteger a + toInteger b) % 2 ^ n) = some (addWords a b)

/-- R76, R77, R78: subtraction is addition of the negation and is modular; NOR bit by bit with its identities; opcode `11`
passes the first operand and no default control word uses it. -/
def Obligations.AluOperationLaws : Prop :=
  (∀ (n : Nat) (a b : BitVec n),
    aluOperate 0b01#2 a b = addWords a (negate b) ∧
    aluOperate 0b01#2 a b = aluOperate 0b00#2 a (negate b) ∧
    (aluOperate 0b01#2 a b).toNat = (2 ^ n - b.toNat + a.toNat) % 2 ^ n ∧
    aluOperate 0b01#2 a 0#n = a ∧
    aluOperate 0b01#2 a (BitVec.intMin n) = addWords a (BitVec.intMin n) ∧
    aluOperate 0b01#2 a a = 0#n ∧
    (∀ i, i < n → (aluOperate 0b10#2 a b).getLsbD i = !(a.getLsbD i || b.getLsbD i)) ∧
    aluOperate 0b10#2 a b = ~~~(a ||| b) ∧
    norWords a a = ~~~a ∧ norWords a 0#n = ~~~a ∧ norWords (BitVec.allOnes n) b = 0#n ∧
    aluOperate 0b11#2 a b = a) ∧
  norWords 0#16 0#16 = 0xFFFF#16 ∧
  (∀ op, (controlWord defaultMcwTable op).aluOp ≠ 0b11#2)

/-- R79: sign extension keeps the field, copies its sign bit and keeps its signed value; a field as wide or wider is
unchanged; the datapath's instance is 8 bits to 16. -/
def Obligations.SignExtensionLaws : Prop :=
  (∀ (N m : Nat) (f : BitVec m), m ≤ N →
    (∀ i, i < m → (extend N f).getLsbD i = f.getLsbD i) ∧
    (∀ i, m ≤ i → i < N → (extend N f).getLsbD i = f.msb) ∧
    toInteger (extend N f) = toInteger f) ∧
  (∀ (N m : Nat) (f : BitVec m), N ≤ m → (extend N f).toNat = f.toNat ∧ max N m = m) ∧
  (∀ f : BitVec 8, (extend 16 f).toNat = (extend16 f).toNat) ∧
  extend16 0x05 = 0x0005 ∧ extend16 0x7F = 0x007F ∧ extend16 0x80 = 0xFF80 ∧ extend16 0xFF = 0xFFFF ∧
  extend16 0x00 = 0x0000

/-- R82: what a register update stores: zero for an absent value, the value of equal width, a narrower one padded on the
left, of a wider one the leftmost bits; the machine's registers take 16-bit words only. -/
def Obligations.RegisterUpdatePadsOrKeepsTheLeftmostBits : Prop :=
  (∀ W : Nat, registerUpdate W none = 0#W) ∧
  (∀ (W : Nat) (v : BitVec W), registerUpdate W (some ⟨W, v⟩) = v) ∧
  (∀ (W m : Nat) (v : BitVec m), m < W → (registerUpdate W (some ⟨m, v⟩)).toNat = v.toNat) ∧
  (∀ (W m : Nat) (v : BitVec m), W < m → ∀ i, i < W →
    (registerUpdate W (some ⟨m, v⟩)).getLsbD i = v.getLsbD (i + (m - W))) ∧
  (∀ (s : State) (r : RegIdx) (v : Word),
    (s.writeReg r v).readReg r = registerUpdate 16 (some ⟨16, v⟩) ∧
    (s.setPc v).pc = registerUpdate 16 (some ⟨16, v⟩) ∧ (s.setMar v).mar = registerUpdate 16 (some ⟨16, v⟩))

/-- The default control words are the nine strings of 41_controller.md section 3, and the string of a control word and its
eight signals determine each other (the constants are the spec's decision D6, log 4). -/
def Obligations.DefaultControlWords : Prop :=
  mcwBits defaultMcwTable.add = 0b000000011#9 ∧ mcwBits defaultMcwTable.sub = 0b000001011#9 ∧
  mcwBits defaultMcwTable.nor = 0b000010011#9 ∧ mcwBits defaultMcwTable.li = 0b000100011#9 ∧
  mcwBits defaultMcwTable.addi = 0b000100011#9 ∧ mcwBits defaultMcwTable.mr = 0b000100110#9 ∧
  mcwBits defaultMcwTable.mw = 0b001100100#9 ∧ mcwBits defaultMcwTable.bez = 0b010000000#9 ∧
  mcwBits defaultMcwTable.j = 0b100000000#9 ∧
  (∀ w : BitVec 9, mcwBits (mcwOfBits w) = w) ∧ (∀ c : Mcw, mcwOfBits (mcwBits c) = c)
end

