-- ==== Sys2Proof/Laws/Memory.lean ====
section
/-! SUPPORT. What the memory operations do: a read after a write, and that each operation keeps the canonical form. -/

namespace Sys2Proof

theorem Memory.read_insert_self (m : Memory) (k : Nat) (v : Word) : (m.insert k v).read k = v := by
  induction m with
  | nil => simp [Memory.insert, Memory.read]
  | cons c rest ih =>
    unfold Memory.insert
    split
    · simp [Memory.read]
    · split
      · simp [Memory.read]
      · next h => simpa [Memory.read, Ne.symm h] using ih

theorem Memory.read_insert_of_ne (m : Memory) {k j : Nat} (v : Word) (h : j ≠ k) :
    (m.insert k v).read j = m.read j := by
  induction m with
  | nil => simp [Memory.insert, Memory.read, Ne.symm h]
  | cons c rest ih =>
    unfold Memory.insert
    split
    · simp [Memory.read, Ne.symm h]
    · split
      · next hk => subst hk; simp [Memory.read, Ne.symm h]
      · simp [Memory.read, ih]

theorem Memory.read_erase_self (m : Memory) (k : Nat) : (m.erase k).read k = 0x0000 := by
  induction m with
  | nil => rfl
  | cons c rest ih =>
    by_cases h : c.1 = k
    · simpa [Memory.erase, h] using ih
    · simpa [Memory.erase, Memory.read, h] using ih

theorem Memory.read_erase_of_ne (m : Memory) {k j : Nat} (h : j ≠ k) : (m.erase k).read j = m.read j := by
  induction m with
  | nil => rfl
  | cons c rest ih =>
    have ih' : Memory.read (List.filter (fun c => c.1 != k) rest) j = Memory.read rest j := ih
    by_cases hc : c.1 = k
    · simp [Memory.erase, Memory.read, hc, Ne.symm h, ih']
    · simp [Memory.erase, Memory.read, hc, ih']

/-- A read after a write of the same address gives the word written, whatever else is listed. -/
theorem Memory.read_write_self (m : Memory) (k : Nat) (v : Word) : (m.write k v).read k = v := by
  unfold Memory.write
  split
  · next h => rw [h, Memory.read_erase_self]
  · exact Memory.read_insert_self m k v

/-- A write leaves every other address alone. -/
theorem Memory.read_write_of_ne (m : Memory) {k j : Nat} (v : Word) (h : j ≠ k) :
    (m.write k v).read j = m.read j := by
  unfold Memory.write
  split
  · exact Memory.read_erase_of_ne m h
  · exact Memory.read_insert_of_ne m v h

theorem Memory.mem_insert {m : Memory} {k : Nat} {v : Word} {c : Cell} (h : c ∈ m.insert k v) :
    c = (k, v) ∨ c ∈ m := by
  induction m with
  | nil => simpa [Memory.insert] using h
  | cons d rest ih =>
    unfold Memory.insert at h
    split at h
    · simpa using h
    · split at h
      · rcases List.mem_cons.mp h with h | h
        · exact .inl h
        · exact .inr (List.mem_cons_of_mem _ h)
      · rcases List.mem_cons.mp h with h | h
        · exact .inr (h ▸ List.mem_cons_self)
        · exact (ih h).imp id (List.mem_cons_of_mem _)

theorem Memory.insert_rising {m : Memory} (k : Nat) (v : Word) (h : m.Pairwise (fun c d => c.1 < d.1)) :
    (m.insert k v).Pairwise (fun c d => c.1 < d.1) := by
  induction m with
  | nil => simp [Memory.insert]
  | cons c rest ih =>
    obtain ⟨hc, hr⟩ := List.pairwise_cons.mp h
    unfold Memory.insert
    split
    · next hk =>
      refine List.pairwise_cons.mpr ⟨fun d hd => ?_, h⟩
      rcases List.mem_cons.mp hd with hd | hd
      · exact hd ▸ hk
      · exact hk.trans (hc d hd)
    · split
      · next hk => exact List.pairwise_cons.mpr ⟨fun d hd => hk ▸ hc d hd, hr⟩
      · refine List.pairwise_cons.mpr ⟨fun d hd => ?_, ih hr⟩
        rcases Memory.mem_insert hd with hd | hd
        · subst hd; simp only; omega
        · exact hc d hd

/-- A write of an address below the capacity keeps the canonical form. -/
theorem Memory.write_wf {cap : Nat} {m : Memory} {k : Nat} (v : Word) (hm : Memory.wf cap m) (hk : k < cap) :
    Memory.wf cap (m.write k v) := by
  unfold Memory.write
  split
  · exact ⟨hm.1.filter _, fun c hc => hm.2 c (List.mem_of_mem_filter hc)⟩
  · next hv =>
    refine ⟨Memory.insert_rising k v hm.1, fun c hc => ?_⟩
    rcases Memory.mem_insert hc with hc | hc
    · subst hc; exact ⟨hk, hv⟩
    · exact hm.2 c hc

theorem inRange_iff (cap : Nat) (a : Word) :
    inRange cap a = true ↔ 0 ≤ Machine.toInteger a ∧ Machine.toInteger a < (cap : Int) := by
  simp [inRange]

theorem cellIndex_lt {cap : Nat} {a : Word} (h : inRange cap a = true) : cellIndex a < cap := by
  have h := (inRange_iff cap a).mp h
  unfold cellIndex
  omega

/-- The write primitive keeps the canonical form, in range or not. -/
theorem Memory.writeAt_wf {cap : Nat} {m : Memory} (a v : Word) (hm : Memory.wf cap m) :
    Memory.wf cap (m.writeAt cap a v) := by
  unfold Memory.writeAt
  split
  · next h => exact Memory.write_wf v hm (cellIndex_lt h)
  · exact hm

theorem Memory.mem_ofWordsFrom {k : Nat} {ws : List Word} {c : Cell} (h : c ∈ Memory.ofWordsFrom k ws) :
    k ≤ c.1 ∧ c.1 < k + ws.length ∧ c.2 ≠ 0x0000 := by
  induction ws generalizing k with
  | nil => simp [Memory.ofWordsFrom] at h
  | cons w rest ih =>
    unfold Memory.ofWordsFrom at h
    split at h
    · obtain ⟨h1, h2, h3⟩ := ih h
      exact ⟨by omega, by simp only [List.length_cons]; omega, h3⟩
    · next hw =>
      rcases List.mem_cons.mp h with h | h
      · subst h; exact ⟨le_refl _, by simp, hw⟩
      · obtain ⟨h1, h2, h3⟩ := ih h
        exact ⟨by omega, by simp only [List.length_cons]; omega, h3⟩

theorem Memory.ofWordsFrom_rising (k : Nat) (ws : List Word) :
    (Memory.ofWordsFrom k ws).Pairwise (fun c d => c.1 < d.1) := by
  induction ws generalizing k with
  | nil => simp [Memory.ofWordsFrom]
  | cons w rest ih =>
    unfold Memory.ofWordsFrom
    split
    · exact ih (k + 1)
    · refine List.pairwise_cons.mpr ⟨fun d hd => ?_, ih (k + 1)⟩
      have := Memory.mem_ofWordsFrom hd
      simp only; omega

/-- A loaded image is canonical within its capacity. -/
theorem Memory.ofWords_wf (cap : Nat) (ws : List Word) : Memory.wf cap (Memory.ofWords cap ws) := by
  refine ⟨Memory.ofWordsFrom_rising 0 _, fun c hc => ?_⟩
  have h := Memory.mem_ofWordsFrom hc
  have hl : (ws.take cap).length ≤ cap := by simp
  exact ⟨by omega, h.2.2⟩

end Sys2Proof
end

