-- ==== Sys2Proof/Laws/State.lean ====
section
/-! SUPPORT. The fields of a state after each named update: one lemma per field and update. -/

namespace Sys2Proof.Machine

variable (s : State)

@[simp] theorem State.setPc_params (v : Word) : (s.setPc v).params = s.params := rfl
@[simp] theorem State.setPc_regs (v : Word) : (s.setPc v).regs = s.regs := rfl
@[simp] theorem State.setPc_pc (v : Word) : (s.setPc v).pc = v := rfl
@[simp] theorem State.setPc_mar (v : Word) : (s.setPc v).mar = s.mar := rfl
@[simp] theorem State.setPc_run (v : Word) : (s.setPc v).run = s.run := rfl
@[simp] theorem State.setPc_imem (v : Word) : (s.setPc v).imem = s.imem := rfl
@[simp] theorem State.setPc_dmem (v : Word) : (s.setPc v).dmem = s.dmem := rfl

@[simp] theorem State.setMar_params (v : Word) : (s.setMar v).params = s.params := rfl
@[simp] theorem State.setMar_regs (v : Word) : (s.setMar v).regs = s.regs := rfl
@[simp] theorem State.setMar_pc (v : Word) : (s.setMar v).pc = s.pc := rfl
@[simp] theorem State.setMar_mar (v : Word) : (s.setMar v).mar = v := rfl
@[simp] theorem State.setMar_run (v : Word) : (s.setMar v).run = s.run := rfl
@[simp] theorem State.setMar_imem (v : Word) : (s.setMar v).imem = s.imem := rfl
@[simp] theorem State.setMar_dmem (v : Word) : (s.setMar v).dmem = s.dmem := rfl

@[simp] theorem State.writeReg_params (r : RegIdx) (v : Word) : (s.writeReg r v).params = s.params := rfl
@[simp] theorem State.writeReg_regs (r : RegIdx) (v : Word) : (s.writeReg r v).regs = s.regs.set r.toNat v r.isLt := rfl
@[simp] theorem State.writeReg_pc (r : RegIdx) (v : Word) : (s.writeReg r v).pc = s.pc := rfl
@[simp] theorem State.writeReg_mar (r : RegIdx) (v : Word) : (s.writeReg r v).mar = s.mar := rfl
@[simp] theorem State.writeReg_run (r : RegIdx) (v : Word) : (s.writeReg r v).run = s.run := rfl
@[simp] theorem State.writeReg_imem (r : RegIdx) (v : Word) : (s.writeReg r v).imem = s.imem := rfl
@[simp] theorem State.writeReg_dmem (r : RegIdx) (v : Word) : (s.writeReg r v).dmem = s.dmem := rfl

@[simp] theorem State.memWrite_params (a v : Word) : (s.memWrite a v).params = s.params := rfl
@[simp] theorem State.memWrite_regs (a v : Word) : (s.memWrite a v).regs = s.regs := rfl
@[simp] theorem State.memWrite_pc (a v : Word) : (s.memWrite a v).pc = s.pc := rfl
@[simp] theorem State.memWrite_mar (a v : Word) : (s.memWrite a v).mar = s.mar := rfl
@[simp] theorem State.memWrite_run (a v : Word) : (s.memWrite a v).run = s.run := rfl
@[simp] theorem State.memWrite_imem (a v : Word) : (s.memWrite a v).imem = s.imem := rfl
@[simp] theorem State.memWrite_dmem (a v : Word) : (s.memWrite a v).dmem = Memory.writeAt s.params.dmemCap s.dmem a v := rfl

@[simp] theorem State.enterHalted_params : (s.enterHalted).params = s.params := rfl
@[simp] theorem State.enterHalted_regs : (s.enterHalted).regs = s.regs := rfl
@[simp] theorem State.enterHalted_pc : (s.enterHalted).pc = s.pc := rfl
@[simp] theorem State.enterHalted_mar : (s.enterHalted).mar = s.mar := rfl
@[simp] theorem State.enterHalted_run : (s.enterHalted).run = .halted := rfl
@[simp] theorem State.enterHalted_imem : (s.enterHalted).imem = s.imem := rfl
@[simp] theorem State.enterHalted_dmem : (s.enterHalted).dmem = s.dmem := rfl

@[simp] theorem State.enterFaulted_params : (s.enterFaulted).params = s.params := rfl
@[simp] theorem State.enterFaulted_regs : (s.enterFaulted).regs = s.regs := rfl
@[simp] theorem State.enterFaulted_pc : (s.enterFaulted).pc = s.pc := rfl
@[simp] theorem State.enterFaulted_mar : (s.enterFaulted).mar = s.mar := rfl
@[simp] theorem State.enterFaulted_run : (s.enterFaulted).run = .faulted := rfl
@[simp] theorem State.enterFaulted_imem : (s.enterFaulted).imem = s.imem := rfl
@[simp] theorem State.enterFaulted_dmem : (s.enterFaulted).dmem = s.dmem := rfl

end Sys2Proof.Machine
end

