-- ==== Sys2Proof/Laws/Ops.lean ====
section
/-! SUPPORT. What the shared operations do: register reads after writes, and each field of the state after a cycle. -/

namespace Sys2Proof.Machine

@[simp] theorem State.readReg_setPc (s : State) (v : Word) (r : RegIdx) : (s.setPc v).readReg r = s.readReg r := rfl

@[simp] theorem State.readReg_setMar (s : State) (v : Word) (r : RegIdx) : (s.setMar v).readReg r = s.readReg r := rfl

@[simp] theorem State.readReg_memWrite (s : State) (a v : Word) (r : RegIdx) :
    (s.memWrite a v).readReg r = s.readReg r := rfl

@[simp] theorem State.readReg_writeReg_self (s : State) (r : RegIdx) (v : Word) : (s.writeReg r v).readReg r = v := by
  simp [State.readReg]

theorem State.readReg_writeReg_of_ne (s : State) {r q : RegIdx} (v : Word) (h : q ≠ r) :
    (s.writeReg r v).readReg q = s.readReg q := by
  have hn : r.toNat ≠ q.toNat := fun e => h (BitVec.eq_of_toNat_eq e.symm)
  simp [State.readReg, Vector.getElem_set_ne _ _ hn]

/-- The register a 5-bit address with a leading zero names. -/
@[simp] theorem regOfAddr_zero_append (r : RegIdx) : regOfAddr (0#1 ++ r) = r := by
  revert r
  decide

variable (c : Mcw) (f : Fields) (s : State)

/-- The value `memReadValue` of a cycle: the word at the old `mar`, after the cycle's own write (R109). -/
theorem State.cycle_regs :
    (State.cycle c f s).regs =
      if c.regWrite then
        s.regs.set (regOfAddr f.addrA).toNat
          (mux c.regDst
            ((if c.memWrite then s.memWrite s.mar (s.readReg (regOfAddr f.addrA)) else s).memRead s.mar)
            (aluOperate c.aluOp (s.readReg (regOfAddr f.addrA))
              (aluOperandB c f (s.readReg (regOfAddr f.addrB)))))
          (regOfAddr f.addrA).isLt
      else s.regs := by
  cases hw : c.memWrite <;> cases hr : c.regWrite <;> cases hm : c.marWrite <;> simp [State.cycle, hw, hr, hm]

theorem State.cycle_mar :
    (State.cycle c f s).mar =
      if c.marWrite then
        aluOperate c.aluOp (s.readReg (regOfAddr f.addrA)) (aluOperandB c f (s.readReg (regOfAddr f.addrB)))
      else s.mar := by
  cases hw : c.memWrite <;> cases hr : c.regWrite <;> cases hm : c.marWrite <;> simp [State.cycle, hw, hr, hm]

theorem State.cycle_pc :
    (State.cycle c f s).pc =
      mux c.pcSrc (addWords s.pc (pcAddend (branchSelect c (s.readReg (regOfAddr f.addrA))) f))
        (jumpTarget s.pc f) := by
  simp [State.cycle]

theorem State.cycle_dmem :
    (State.cycle c f s).dmem =
      if c.memWrite then Memory.writeAt s.params.dmemCap s.dmem s.mar (s.readReg (regOfAddr f.addrA)) else s.dmem := by
  cases hw : c.memWrite <;> cases hr : c.regWrite <;> cases hm : c.marWrite <;> simp [State.cycle, hw, hr, hm]

@[simp] theorem State.cycle_run : (State.cycle c f s).run = s.run := by
  cases hw : c.memWrite <;> cases hr : c.regWrite <;> cases hm : c.marWrite <;> simp [State.cycle, hw, hr, hm]

@[simp] theorem State.cycle_imem : (State.cycle c f s).imem = s.imem := by
  cases hw : c.memWrite <;> cases hr : c.regWrite <;> cases hm : c.marWrite <;> simp [State.cycle, hw, hr, hm]

@[simp] theorem State.cycle_params : (State.cycle c f s).params = s.params := by
  cases hw : c.memWrite <;> cases hr : c.regWrite <;> cases hm : c.marWrite <;> simp [State.cycle, hw, hr, hm]

/-- What executing an instruction can be: the halt transition, or one cycle of its row. -/
theorem exec_cases (i : Instr) (s : State) :
    (i = .halt ∧ exec i s = .next s.enterHalted) ∨
      ∃ op, instrOp i = some op ∧
        exec i s = .next (State.cycle (controlWord s.params.mcwTable op) (instrFields i) s) := by
  cases i
  case halt => exact .inl ⟨rfl, rfl⟩
  all_goals exact .inr ⟨_, rfl, rfl⟩

end Sys2Proof.Machine
end

