-- ==== Sys2Proof/Laws/PerInstr.lean ====
section
/-! SUPPORT. One lemma per instruction: its encoding carries exactly the fixed bits of its row of the opcode table
(30_encoding.md R59). -/

namespace Sys2Proof.Laws

/-- The `mask` of an instruction's row. -/
def rowMask (i : Instr) : Word :=
  match i with
  | .halt => 0xFFFF
  | .add _ _ | .sub _ _ | .nor _ _ => 0xF00F
  | .li _ _ | .mr _ _ | .addi _ _ | .mw _ _ | .bez _ _ | .j _ => 0xF000

/-- The `match` of an instruction's row. -/
def rowMatch (i : Instr) : Word :=
  match i with
  | .halt => 0x0000
  | .add _ _ => 0x0008
  | .sub _ _ => 0x0001
  | .nor _ _ => 0x0002
  | .li _ _ => 0x1000
  | .mr _ _ => 0x2000
  | .addi _ _ => 0x4000
  | .mw _ _ => 0x6000
  | .bez _ _ => 0x7000
  | .j _ => 0x8000

/-- The encoding of `i` under its row's mask is its row's match. -/
def EncodesRow.Statement (i : Instr) : Prop := encode i &&& rowMask i = rowMatch i

theorem rType_masked (ra rb : RegIdx) (func : BitVec 4) :
    (0b0000#4 ++ ra ++ rb ++ func : Word) &&& 0xF00F = 0b000000000000#12 ++ func := by
  ext i h
  simp only [BitVec.getElem_and, BitVec.getElem_append]
  interval_cases i <;> simp

theorem iType_masked (opcode : BitVec 4) (ra : RegIdx) (imm : BitVec 8) :
    (opcode ++ ra ++ imm : Word) &&& 0xF000 = opcode ++ 0b000000000000#12 := by
  ext i h
  simp only [BitVec.getElem_and, BitVec.getElem_append]
  interval_cases i <;> simp

theorem jType_masked (opcode : BitVec 4) (target : BitVec 12) :
    (opcode ++ target : Word) &&& 0xF000 = opcode ++ 0b000000000000#12 := by
  ext i h
  simp only [BitVec.getElem_and, BitVec.getElem_append]
  interval_cases i <;> simp

theorem EncodesRow.halt : EncodesRow.Statement .halt := rfl

theorem EncodesRow.add (ra rb : RegIdx) : EncodesRow.Statement (.add ra rb) := rType_masked ra rb _

theorem EncodesRow.sub (ra rb : RegIdx) : EncodesRow.Statement (.sub ra rb) := rType_masked ra rb _

theorem EncodesRow.nor (ra rb : RegIdx) : EncodesRow.Statement (.nor ra rb) := rType_masked ra rb _

theorem EncodesRow.li (ra : RegIdx) (imm : BitVec 8) : EncodesRow.Statement (.li ra imm) := iType_masked _ ra imm

theorem EncodesRow.mr (ra : RegIdx) (imm : BitVec 8) : EncodesRow.Statement (.mr ra imm) := iType_masked _ ra imm

theorem EncodesRow.addi (ra : RegIdx) (imm : BitVec 8) : EncodesRow.Statement (.addi ra imm) := iType_masked _ ra imm

theorem EncodesRow.mw (ra : RegIdx) (imm : BitVec 8) : EncodesRow.Statement (.mw ra imm) := iType_masked _ ra imm

theorem EncodesRow.bez (ra : RegIdx) (off : BitVec 8) : EncodesRow.Statement (.bez ra off) := iType_masked _ ra off

theorem EncodesRow.j (target : BitVec 12) : EncodesRow.Statement (.j target) := jType_masked _ target

end Sys2Proof.Laws
end

