-- ==== Sys2Proof/Tests/Slice0.lean ====
section
/-! SUPPORT. Tests: decoding of words written out from the encodings of 30_encoding.md R59, single steps with the
vectors of 95_test_vectors.md, the checks of WellFormed, and a witness for the hypotheses of each statement. -/

namespace Sys2Proof.Tests

open Sys2Proof.Machine

/-- The parameters of the vectors: both capacities 64, zero images, the default control words. -/
def vecParams : Params := { referenceParams with imemCap := 64, dmemCap := 64 }

/-- A RUNNING machine at `pc` with a given `mar`, registers and data words, the word `w` placed at `pc`. -/
def vec (pc mar : Word) (rs : List (RegIdx × Word)) (ds : List (Word × Word)) (w : Word) : State :=
  (ds.foldl (fun (s : State) (d : Word × Word) => s.memWrite d.1 d.2)
    (rs.foldl (fun (s : State) (r : RegIdx × Word) => s.writeReg r.1 r.2)
      { State.powerOn vecParams with pc := pc, mar := mar })).placeWord w

/-- Whether an outcome is a next state of which `p` holds. -/
def nextWith (o : Host.Outcome State Fault Refusal) (p : State → Bool) : Bool :=
  match o with
  | .next t => p t
  | .fault _ => false
  | .refused _ => false

/-- Whether an outcome is the illegal-instruction fault with this `pc` and word. -/
def faultsWith (o : Host.Outcome State Fault Refusal) (pc ins : Word) : Bool :=
  match o with
  | .next _ => false
  | .fault f => f == .illegalInstruction pc ins
  | .refused _ => false

/-- Whether decoding answers this instruction. -/
def decodesTo (w : Word) (i : Instr) : Bool :=
  match decode w with
  | .ok i' => i' == i
  | .error _ => false

/-! ### Decoding: words written out bit by bit (opcode, regA, regB or imm8, func) -/

theorem test_decode_halt : decodesTo 0b0000000000000000 .halt = true := by decide
theorem test_decode_add : decodesTo 0b0000001100011000 (.add 3 1) = true := by decide
theorem test_decode_sub : decodesTo 0b0000000000010001 (.sub 0 1) = true := by decide
theorem test_decode_nor : decodesTo 0b0000001100100010 (.nor 3 2) = true := by decide
theorem test_decode_li : decodesTo 0b0001000000000101 (.li 0 5) = true := by decide
theorem test_decode_mr : decodesTo 0b0010001100000101 (.mr 3 5) = true := by decide
theorem test_decode_addi : decodesTo 0b0100001111111111 (.addi 3 0xFF) = true := by decide
theorem test_decode_mw : decodesTo 0b0110001000000011 (.mw 2 3) = true := by decide
theorem test_decode_bez : decodesTo 0b0111000111111110 (.bez 1 0xFE) = true := by decide
theorem test_decode_j : decodesTo 0b1000101010111100 (.j 0xABC) = true := by decide

/-- V8: each unused opcode and function is refused. -/
theorem test_decode_refuses :
    ([0x3000, 0x5123, 0x9000, 0xA000, 0xB000, 0xC000, 0xD000, 0xE000, 0xFFFF, 0x0120, 0x0010, 0x0004, 0x0003, 0x0009,
      0x000F].all (fun w => decodeTableWord 16 w == none)) = true := by decide

theorem test_decodeTableWord_takes_a_row : decodeTableWord 16 0x4000 = some (.addi 0 0) := by decide

/-! ### WellFormed: an ill-formed term for each check -/

theorem test_wf_register : Asm.wellFormed (.add 16 0) = false := by decide
theorem test_wf_second_register : Asm.wellFormed (.nor 0 16) = false := by decide
theorem test_wf_immediate_high : Asm.wellFormed (.li 0 128) = false := by decide
theorem test_wf_immediate_low : Asm.wellFormed (.bez 0 (-129)) = false := by decide
theorem test_wf_target : Asm.wellFormed (.j 4096) = false := by decide
theorem test_wf_word : assemble (.word 65536) = none := by decide
theorem test_wf_refused_line : asmInstr (.li 0 128) = none := by decide
theorem test_wf_capacity_zero : ¬ Params.wf { vecParams with imemCap := 0 } := by decide
theorem test_wf_capacity_high : ¬ Params.wf { vecParams with dmemCap := 32769 } := by decide
theorem test_wf_image_beyond_capacity : ¬ Params.wf { vecParams with imemInit := [(64, 0x1005)] } := by decide
theorem test_wf_image_zero_word : ¬ Params.wf { vecParams with dmemInit := [(3, 0x0000)] } := by decide
theorem test_wf_image_unsorted : ¬ Params.wf { vecParams with dmemInit := [(3, 1), (2, 1)] } := by decide
theorem test_assemble_bez : assemble (.bez 1 (-2)) = some 0x71FE := by decide
theorem test_assemble_nop : assemble (.addi 0 0) = some 0x4000 := by decide

/-! ### Single steps: V1 to V8 -/

theorem test_add_overflow_wraps :
    nextWith (step (vec 0 0 [(1, 0x7FFF), (2, 0x0001)] [] 0x0128)) (fun t => t.readReg 1 == 0x8000 && t.pc == 1) = true := by
  decide

theorem test_add_same_register_doubles :
    nextWith (step (vec 0 0 [(1, 0x4001)] [] 0x0118)) (fun t => t.readReg 1 == 0x8002) = true := by decide

theorem test_sub_scenario_2 :
    nextWith (step (vec 0 0 [(0, 5), (1, 3)] [] 0x0011)) (fun t => t.readReg 0 == 2 && t.readReg 1 == 3) = true := by
  decide

theorem test_sub_subtrahend_8000 :
    nextWith (step (vec 0 0 [(1, 5), (2, 0x8000)] [] 0x0121)) (fun t => t.readReg 1 == 0x8005) = true := by decide

theorem test_nor_bits :
    nextWith (step (vec 0 0 [(1, 0x00FF), (2, 0x0F0F)] [] 0x0122)) (fun t => t.readReg 1 == 0xF000) = true := by decide

theorem test_nor_complements :
    nextWith (step (vec 0 0 [(1, 0x00FF)] [] 0x0112)) (fun t => t.readReg 1 == 0xFF00) = true := by decide

theorem test_li_scenario_1 :
    nextWith (step (vec 0 0 [] [] 0x1005)) (fun t => t.readReg 0 == 5 && t.pc == 1 && t.run == .running) = true := by
  decide

theorem test_li_adds :
    nextWith (step (vec 0 0 [(1, 0x0100)] [] 0x1180)) (fun t => t.readReg 1 == 0x0080) = true := by decide

theorem test_addi_sign_extends :
    nextWith (step (vec 0 0 [(3, 0xFFFC)] [] 0x43FF)) (fun t => t.readReg 3 == 0xFFFB && t.mar == 0) = true := by decide

theorem test_addi_low_nibble_is_immediate :
    nextWith (step (vec 0 0 [(1, 1)] [] 0x410F)) (fun t => t.readReg 1 == 0x0010) = true := by decide

theorem test_mr_reads_old_mar :
    nextWith (step (vec 0 2 [(3, 0x0010)] [(2, 0xBEEF)] 0x2305))
      (fun t => t.readReg 3 == 0xBEEF && t.mar == 0x0015) = true := by decide

theorem test_mr_at_capacity_reads_zero :
    nextWith (step (vec 0 0x0040 [(3, 0x0010)] [] 0x2305)) (fun t => t.readReg 3 == 0 && t.mar == 0x0015) = true := by
  decide

theorem test_mw_stores_at_old_mar :
    nextWith (step (vec 0 4 [(2, 7)] [] 0x6203))
      (fun t => t.memRead 4 == 7 && t.mar == 0x000A && t.readReg 2 == 7) = true := by decide

theorem test_mw_negative_address_is_dropped :
    nextWith (step (vec 0 0x8000 [(2, 7)] [] 0x6203)) (fun t => t.dmem == [] && t.mar == 0x000A) = true := by decide

theorem test_bez_taken_backwards :
    nextWith (step (vec 5 0 [] [] 0x71FE)) (fun t => t.pc == 3) = true := by decide

theorem test_bez_8000_is_not_zero :
    nextWith (step (vec 0 0 [(1, 0x8000)] [] 0x7105)) (fun t => t.pc == 1) = true := by decide

theorem test_j_keeps_page :
    nextWith (execJ 0xABC { State.reset with pc := 0x1234 }) (fun t => t.pc == 0x1ABC) = true := by decide

theorem test_j_page_of_the_jump_itself :
    nextWith (execJ 0 { State.reset with pc := 0x0FFF }) (fun t => t.pc == 0x0000) = true := by decide

theorem test_halt_keeps_pc :
    nextWith (step (vec 3 0 [] [] 0x0000)) (fun t => t.run == .halted && t.pc == 3) = true := by decide

theorem test_fetch_at_capacity_halts :
    nextWith (step { vec 0 0 [] [] 0x1005 with pc := 64 }) (fun t => t.run == .halted && t.pc == 64) = true := by decide

theorem test_illegal_opcode_faults : faultsWith (step (vec 1 0 [] [] 0x3000)) 1 0x3000 = true := by decide

theorem test_illegal_tick :
    (tick (vec 1 0 [] [] 0x3000)).state.faultDiagnostic = some (1, 0x3000) ∧
      (tick (vec 1 0 [] [] 0x3000)).running = false := by decide

/-- The interface's placement: the very next step after reset runs the word. -/
theorem test_withFetchWord_runs :
    nextWith (step (State.reset.withFetchWord 16 0x11FF)) (fun t => t.readReg 1 == 0xFFFF) = true := by decide

/-- U3: a control word with ALUop `11` passes the first operand. -/
theorem test_alu_pass_through : aluOperate 0b11#2 0x1234#16 0x5678#16 = 0x1234#16 := by decide

/-! ### V10, the loader, the primitives -/

theorem test_reset_keeps_data :
    (hostAct .reset { vec 9 3 [(1, 5)] [(3, 7)] 0x1005 with run := .halted }).memRead 3 = 7 ∧
      (hostAct .reset { vec 9 3 [(1, 5)] [(3, 7)] 0x1005 with run := .halted }).readReg 1 = 0 := by decide

theorem test_clearData :
    (hostAct .clearData (vec 9 3 [(1, 5)] [(3, 7)] 0x1005)).memRead 3 = 0 ∧
      (hostAct .clearData (vec 9 3 [(1, 5)] [(3, 7)] 0x1005)).readReg 1 = 5 := by decide

theorem test_loader_pads_and_skips_zero :
    loadImage 2 [['1', '0', '1'], [], ['1']] = some [(0, 0x0005)] := by decide

theorem test_loader_keeps_first_16 :
    lineWord ['1', '0', '0', '0', '0', '0', '0', '0', '0', '0', '0', '0', '0', '0', '0', '0', '1', '1'] = some 0x8000 := by
  decide

theorem test_loader_refuses : loadImage 2 [['1', 'x']] = none := by decide

/-- S4.7: a narrower value is padded with zeros, a 20-bit one keeps its leftmost 16 bits. -/
theorem test_registerUpdate :
    registerUpdate 16 (some ⟨8, 0x80#8⟩) = 0x0080#16 ∧ registerUpdate 16 (some ⟨20, 0xABCDE#20⟩) = 0xABCD#16 := by decide

theorem test_negate_scan : negateByScan 0x0014#16 = 0xFFEC#16 := by decide

theorem test_fromInteger_refuses : fromInteger 16 65536 = none := by decide

/-! ### Witnesses: a concrete state and operands that meet the hypotheses of each statement, clause by clause -/

/-- The hypotheses of EncodeOfDecodeIsTheWord and FieldsAreThoseOfTheInstructionWord. -/
theorem witness_decode : decode 0x0FF8 = .ok (.add 15 15) := rfl

/-- StepRunsTheDecodedInstruction; the first clause of ProgramCounterAdvance. -/
theorem witness_running_decodes :
    (vec 63 0 [] [] 0x8005).run = .running ∧ decode (vec 63 0 [] [] 0x8005).ifetch = .ok (.j 5) := ⟨by decide, rfl⟩

/-- ZeroFetchHalts; the halt clauses of TerminatingConditionsInOrder and HaltStopsUntilReset. -/
theorem witness_zero_fetch : State.reset.run = .running ∧ State.reset.ifetch = 0x0000 := by decide

/-- The out-of-range clauses of the same statements, at the boundary: `pc` equal to the capacity. -/
theorem witness_pc_out_of_range :
    { vec 0 0 [] [] 0x1005 with pc := 64 }.run = .running ∧
      inRange { vec 0 0 [] [] 0x1005 with pc := 64 }.params.imemCap 64 = false := by decide

/-- StoppedMachineIgnoresTheClock, RunContinuesAndStops, the exit clause of ResetInputRestartsTheMachine. -/
theorem witness_stopped :
    (runFor 1 State.reset).run ≠ .running ∧ (hostAct .reset (runFor 1 State.reset)).run = .running := by decide

/-- RunContinuesAndStops, a HALTED and a FAULTED end of a run from RUNNING; RunEndsOnlyAtHaltOrIllegalWord: a run that is
RUNNING after one pulse and not after two. -/
theorem witness_run_ends :
    (vec 63 0 [] [] 0x4000).run = .running ∧ (runFor 1 (vec 63 0 [] [] 0x4000)).run = .running ∧
      (runFor 2 (vec 63 0 [] [] 0x4000)).EndedNormally ∧ (vec 1 0 [] [] 0x3000).run = .running ∧
      (runFor 1 (vec 1 0 [] [] 0x3000)).run = .faulted := by decide

/-- RunEndsOnlyAtHaltOrIllegalWord: a jump to its own address, a taken branch by 0. -/
theorem witness_endless_run :
    (vec 5 0 [] [] 0x8005).UsesDefaultTable ∧ (vec 5 0 [] [] 0x8005).run = .running ∧
      decode (vec 5 0 [] [] 0x8005).ifetch = .ok (.j 5) ∧ (vec 5 0 [] [] 0x8005).pc.extractLsb' 0 12 = 5 ∧
      decode (vec 5 0 [] [] 0x7100).ifetch = .ok (.bez 1 0) ∧ (vec 5 0 [] [] 0x7100).readReg 1 = 0x0000 :=
  ⟨by decide, by decide, rfl, by decide, rfl, by decide⟩

/-- DecodeFailureFaultsAndChangesOnlyRun, the fault clause of TerminatingConditionsInOrder, PortsAgreeWithTheTick. -/
theorem witness_decode_failure :
    (vec 0 0 [] [] 0x0120).run = .running ∧ (vec 0 0 [] [] 0x0120).ifetch ≠ 0x0000 ∧
      controllerDecode (opcodeField (vec 0 0 [] [] 0x0120).ifetch) (funcField (vec 0 0 [] [] 0x0120).ifetch) = none ∧
      (tick (vec 0 0 [] [] 0x0120)).diagnostic = some (0, 0x0120) := by decide

/-- The last clauses of TerminatingConditionsInOrder. -/
theorem witness_row_found :
    (vec 0 0 [] [] 0x0001).ifetch ≠ 0x0000 ∧
      controllerDecode (opcodeField (vec 0 0 [] [] 0x0001).ifetch) (funcField (vec 0 0 [] [] 0x0001).ifetch) = some .sub := by
  decide

/-- The instruction rules, the frames and the whole-machine rules under the default control words. -/
theorem witness_default_table : (vec 0 4 [(2, 7)] [] 0x6203).UsesDefaultTable ∧ (vec 0 4 [(2, 7)] [] 0x6203).params.wf := by
  decide

/-- The stored-word clause of MemoryWriteFrame at the last address, and its opposite at the capacity. -/
theorem witness_store_range :
    inRange (vec 0 63 [] [] 0x6203).params.dmemCap (vec 0 63 [] [] 0x6203).mar = true ∧
      inRange (vec 0 64 [] [] 0x6203).params.dmemCap (vec 0 64 [] [] 0x6203).mar = false := by decide

/-- The out-of-range clause of BezBranchesOnZero: V5, a branch below address 0. -/
theorem witness_bez_leaves_memory :
    ∃ t, exec (.bez 1 0xFF) (vec 0 0 [] [] 0x71FF) = .next t ∧ (vec 0 0 [] [] 0x71FF).run = .running ∧
      inRange t.params.imemCap t.pc = false := ⟨_, rfl, by decide, by decide⟩

/-- The clauses of JumpStaysInItsPage: a small instruction memory, and a target beyond it. -/
theorem witness_jump :
    (vec 5 0 [] [] 0x8FFF).params.imemCap ≤ 4096 ∧
      inRange (vec 5 0 [] [] 0x8FFF).params.imemCap (vec 5 0 [] [] 0x8FFF).pc = true ∧
      ∃ t, exec (.j 0xFFF) (vec 5 0 [] [] 0x8FFF) = .next t ∧ inRange t.params.imemCap t.pc = false :=
  ⟨by decide, by decide, _, rfl, by decide⟩

/-- The HALTED clause of HaltStopsUntilReset. -/
theorem witness_halted : (runFor 1 State.reset).run = .halted := by decide

/-- OneWritePortForRegisterA: a register that changes, an operation that writes, and the halt word. -/
theorem witness_register_written :
    ∃ t, exec (.li 1 5) State.reset = .next t ∧ t.readReg 1 ≠ State.reset.readReg 1 ∧ instrOp (.li 1 5) = some .li ∧
      (controlWord State.reset.params.mcwTable .li).regWrite = true ∧ exec .halt State.reset = .next State.reset.enterHalted :=
  ⟨_, rfl, by decide, rfl, rfl, rfl⟩

/-- The other clauses of ProgramCounterAdvance: a word that does not decode, a stopped machine, `pc = 0x8000`. -/
theorem witness_pc_cases :
    decode (vec 0 0 [] [] 0x3000).ifetch = .error (.illegalOpcode 3) ∧ (runFor 1 State.reset).UsesDefaultTable ∧
      (runFor 1 State.reset).params.wf ∧ 0x8000 ≤ ({ State.reset with pc := 0x8000 } : State).pc.toNat :=
  ⟨rfl, by decide, by decide, by decide⟩

/-- MarIsWrittenByMemoryInstructionsOnly: `mar` changes by MR, and an instruction that is none of the two. -/
theorem witness_mar_written :
    ∃ t u, exec (.mr 3 5) State.reset = .next t ∧ t.mar ≠ State.reset.mar ∧
      exec (.add 1 2) State.reset = .next u ∧ isMemoryInstr (.add 1 2) = false := ⟨_, _, rfl, by decide, rfl, rfl⟩

/-- DataAddressIsDelayedByOneAccess: a memory instruction, then a list of others that runs; and from reset. -/
theorem witness_delay :
    ∃ s1 s2 s3, exec (.mw 2 3) State.reset = .next s1 ∧ execAll [.add 1 2, .bez 0 4] s1 = some s2 ∧
      (∀ i ∈ [Instr.add 1 2, Instr.bez 0 4], isMemoryInstr i = false) ∧
      execAll [.add 1 2, .bez 0 4] (hostAct .reset State.reset) = some s3 := ⟨_, _, _, rfl, rfl, by decide, rfl⟩

/-- ParametersNeverChange and StepKeepsTheInvariant: a step that answers a next state from a state with the invariant. -/
theorem witness_step_from_inv :
    (vec 0 4 [(2, 7)] [] 0x6203).Inv ∧ ∃ t, step (vec 0 4 [(2, 7)] [] 0x6203) = .next t := ⟨by decide, _, rfl⟩

/-- The power-on clause of HostInputsKeepTheInvariant (its first clause: witness_step_from_inv) and the invariant clause of
PowerOnState. -/
theorem witness_params_wf : Params.wf { vecParams with imemInit := [(0, 0x1005)], dmemInit := [(63, 0xBEEF)] } := by decide

/-- WritesAreReadBackAndLocal: in range at the last address, out of range at the capacity and below zero. -/
theorem witness_write_range :
    (0 ≤ (63#16).toInt ∧ (63#16).toInt < (vecParams.dmemCap : Int)) ∧
      ¬(0 ≤ (64#16).toInt ∧ (64#16).toInt < (vecParams.dmemCap : Int)) ∧
      ¬(0 ≤ (0xFFFF#16).toInt ∧ (0xFFFF#16).toInt < (vecParams.dmemCap : Int)) := by decide

/-- SignedRangeTestIsUnsigned, each clause at its boundary. -/
theorem witness_signed_range :
    (0x8000#16).msb = true ∧ 32768 ≤ 32768 ∧ inRange 32768 0x7FFF = true := by decide

/-- SameCycleWriteIsRead: a control word that stores and writes back the memory value. -/
theorem witness_store_and_read_back :
    (mcwOfBits 0b001000010#9).memWrite = true ∧ (mcwOfBits 0b001000010#9).regWrite = true ∧
      (mcwOfBits 0b001000010#9).regDst = false := by decide

/-- LoadedImageHoldsItsLines: an image that loads, a line that loads, and an image that does not. -/
theorem witness_loader :
    loadImage 4 [['1', '0']] = some [(0, 2)] ∧ lineWord ['1', '0'] = some 2 ∧ loadImage 4 [['2']] = none := by decide

/-- ResetInputRestartsTheMachine: the reload of an image whose first word is the halt word. -/
theorem witness_reset_halts : (hostAct .reset State.reset).imemAt 0x0000 = 0x0000 := by decide

/-- OtherInstructionsIgnoreDataMemory, IllegalWordsAreThoseTheSpecLists and InstructionMemoryIsItsImage. -/
theorem witness_others :
    isMemoryInstr (.j 5) = false ∧ decode 0xFFFF = .error (.illegalOpcode 15) ∧
      decode 0x000F = .error (.illegalFunction 15) ∧ HostInput.clk ≠ HostInput.reset ∧
      ∃ t, exec (.add 1 2) State.reset = .next t := ⟨rfl, rfl, rfl, by decide, _, rfl⟩

/-- The width hypotheses of ToIntegerIsTwosComplement, FromIntegerRoundTrip, SignExtensionLaws,
RegisterUpdatePadsOrKeepsTheLeftmostBits and AluOperationLaws, and a word that is not the most negative one. -/
theorem witness_widths :
    0 < 16 ∧ (-65535 : Int).natAbs ≤ 2 ^ 16 - 1 ∧ 2 ^ 16 - 1 < (65536 : Int).natAbs ∧ 8 ≤ 16 ∧ 8 < 16 ∧ 16 < 20 ∧
      (0x7FFF#16).msb = false ∧ (0x8000#16).msb = true ∧ 0x7FFF#16 ≠ BitVec.intMin 16 := by decide

end Sys2Proof.Tests
end

section
/-! The state family (10_state.md): the register file's one write port (R13), the advance of `pc` (R14), the host's inputs
`reset` and `clearData` (R22, R24). First the fields of an encoded instruction, then what a step and a tick answer in each
case, then what one cycle does to the registers and to `pc`; the four obligations come last. -/

namespace Sys2Proof.Machine

/-! ### The fields of an encoded instruction -/

/-- A format's opcode stands above the twelve bits of its operands; step 2 (R102) takes every other field from those. -/
theorem fieldsOf_append (opcode : BitVec 4) (operands : BitVec 12) :
    fieldsOf (opcode ++ operands) =
      { opfunc := opcode ++ operands.extractLsb' 0 4
        addrA := 0#1 ++ operands.extractLsb' 8 4
        addrB := 0#1 ++ operands.extractLsb' 4 4
        addrJ := operands
        immediate16 := extend16 (operands.extractLsb' 0 8) } := by
  have hOp : opcodeField (opcode ++ operands) = opcode := BitVec.extractLsb'_append_eq_left
  have hFn : funcField (opcode ++ operands) = operands.extractLsb' 0 4 :=
    BitVec.extractLsb'_append_eq_of_add_le (by decide)
  have hA : regAField (opcode ++ operands) = operands.extractLsb' 8 4 :=
    BitVec.extractLsb'_append_eq_of_add_le (by decide)
  have hB : regBField (opcode ++ operands) = operands.extractLsb' 4 4 :=
    BitVec.extractLsb'_append_eq_of_add_le (by decide)
  have hJ : addrJField (opcode ++ operands) = operands := BitVec.extractLsb'_append_eq_right
  have hImm : imm8Field (opcode ++ operands) = operands.extractLsb' 0 8 :=
    BitVec.extractLsb'_append_eq_of_add_le (by decide)
  simp only [fieldsOf, hOp, hFn, hA, hB, hJ, hImm]

theorem fieldsOf_jType (target : BitVec 12) : fieldsOf (0b1000#4 ++ target) = jTypeFields target :=
  fieldsOf_append _ target

theorem fieldsOf_iType (opcode : BitVec 4) (ra : RegIdx) (imm : BitVec 8) :
    fieldsOf (opcode ++ ra ++ imm) = iTypeFields opcode ra imm := by
  have hAssoc : (opcode ++ ra ++ imm : BitVec (4 + 4 + 8)) = (opcode ++ (ra ++ imm) : BitVec (4 + (4 + 8))) :=
    BitVec.append_assoc
  have hFn : (ra ++ imm).extractLsb' 0 4 = imm.extractLsb' 0 4 := BitVec.extractLsb'_append_eq_of_add_le (by decide)
  have hA : (ra ++ imm).extractLsb' 8 4 = ra := BitVec.extractLsb'_append_eq_left
  have hB : (ra ++ imm).extractLsb' 4 4 = imm.extractLsb' 4 4 := BitVec.extractLsb'_append_eq_of_add_le (by decide)
  have hImm : (ra ++ imm).extractLsb' 0 8 = imm := BitVec.extractLsb'_append_eq_right
  calc
    fieldsOf (opcode ++ ra ++ imm) = fieldsOf (opcode ++ (ra ++ imm)) := congrArg fieldsOf hAssoc
    _ = _ := fieldsOf_append opcode (ra ++ imm)
    _ = iTypeFields opcode ra imm := by rw [hFn, hA, hB, hImm]; rfl

/-- An R-type word has the fields of the I-type word whose immediate is `regB ++ func`. -/
theorem fieldsOf_rType (func : BitVec 4) (ra rb : RegIdx) :
    fieldsOf (0b0000#4 ++ ra ++ rb ++ func) = rTypeFields func ra rb := by
  have hAssoc : (0b0000#4 ++ ra ++ rb ++ func : BitVec (4 + 4 + 4 + 4)) =
      (0b0000#4 ++ ra ++ (rb ++ func) : BitVec (4 + 4 + (4 + 4))) := BitVec.append_assoc
  have hJ : (ra ++ rb ++ func : BitVec (4 + 4 + 4)) = (ra ++ (rb ++ func) : BitVec (4 + (4 + 4))) :=
    BitVec.append_assoc
  have hFn : (rb ++ func).extractLsb' 0 4 = func := BitVec.extractLsb'_append_eq_right
  have hB : (rb ++ func).extractLsb' 4 4 = rb := BitVec.extractLsb'_append_eq_left
  calc
    fieldsOf (0b0000#4 ++ ra ++ rb ++ func) = fieldsOf (0b0000#4 ++ ra ++ (rb ++ func)) := congrArg fieldsOf hAssoc
    _ = iTypeFields 0b0000#4 ra (rb ++ func) := fieldsOf_iType _ ra (rb ++ func)
    _ = rTypeFields func ra rb := by simp only [iTypeFields, rTypeFields, hFn, hB]; rw [← hJ]

/-- The fields the datapath sees for an instruction are those step 2 extracts from its word (R102). -/
theorem fieldsOf_encode (i : Instr) : fieldsOf (encode i) = instrFields i := by
  cases i with
  | halt => rfl
  | add ra rb | sub ra rb | nor ra rb => exact fieldsOf_rType _ ra rb
  | li ra imm | mr ra imm | addi ra imm | mw ra imm | bez ra imm => exact fieldsOf_iType _ ra imm
  | j target => exact fieldsOf_jType target

theorem regOfAddr_addrA_instrFields (i : Instr) :
    regOfAddr (instrFields i).addrA = (encode i).extractLsb' 8 4 := by
  rw [← fieldsOf_encode]
  exact regOfAddr_zero_append _

theorem regOfAddr_addrB_instrFields (i : Instr) :
    regOfAddr (instrFields i).addrB = (encode i).extractLsb' 4 4 := by
  rw [← fieldsOf_encode]
  exact regOfAddr_zero_append _

theorem immediate16_instrFields (i : Instr) :
    (instrFields i).immediate16 = ((encode i).extractLsb' 0 8).signExtend 16 := by
  rw [← fieldsOf_encode]
  rfl

/-! ### The range test at a negative address -/

/-- The source's signed reading of a word (R70) is its two's-complement value. -/
theorem toInteger_eq_toInt {n : Nat} (w : BitVec n) : toInteger w = w.toInt := by
  have hneg : negate w = -w := (BitVec.neg_eq_not_add w).symm
  cases hmsb : w.msb with
  | false => simp [toInteger, hmsb, BitVec.toInt_eq_toNat_of_msb hmsb]
  | true => simp [toInteger, hmsb, hneg, BitVec.toInt_eq_neg_toNat_neg_of_msb_true hmsb]

/-- A pattern with bit 15 set addresses no word of any memory (R34). -/
theorem inRange_eq_false_of_msb (cap : Nat) {a : Word} (h : a.msb = true) : inRange cap a = false := by
  have hneg : toInteger a < 0 := toInteger_eq_toInt a ▸ BitVec.toInt_neg_of_msb_true h
  simp [inRange, hneg]

/-- A fetch out of range gives the halt word (R35). -/
theorem State.ifetch_of_not_inRange {s : State} (h : inRange s.params.imemCap s.pc = false) : s.ifetch = 0x0000 := by
  simp [State.ifetch, State.imemAt, Memory.readAt, h]

/-! ### What a step and a tick answer, case by case -/

section
variable {s t : State} {i : Instr}

theorem step_of_not_running (h : s.run ≠ .running) : step s = .next s := by
  cases hr : s.run with
  | running => exact absurd hr h
  | halted | faulted => simp [step, hr]

theorem step_of_decode_ok (hr : s.run = .running) (hd : decode s.ifetch = .ok i) : step s = exec i s := by
  simp [step, hr, hd]

theorem step_of_decode_error {e : DecodeReject} (hr : s.run = .running) (hd : decode s.ifetch = .error e) :
    step s = illegalInstruction s s.ifetch := by
  simp [step, hr, hd]

theorem step_of_ifetch_zero (hr : s.run = .running) (h : s.ifetch = 0x0000) : step s = .next s.enterHalted :=
  step_of_decode_ok (i := .halt) hr (by rw [h]; rfl)

theorem tick_state_of_next (h : step s = .next t) : (tick s).state = t := by
  simp [tick, h]

theorem tick_state_of_decode_error {e : DecodeReject} (hr : s.run = .running) (hd : decode s.ifetch = .error e) :
    (tick s).state = s.enterFaulted := by
  simp [tick, step_of_decode_error hr hd, illegalInstruction]

/-- An instruction with a decode row is one cycle under its operation's control word. -/
theorem exec_of_instrOp {op : Op} (s : State) (h : instrOp i = some op) :
    exec i s = .next (State.cycle (controlWord s.params.mcwTable op) (instrFields i) s) := by
  obtain ⟨rfl, -⟩ | ⟨op', hop, hexec⟩ := exec_cases i s
  · exact absurd h (by simp [instrOp])
  · obtain rfl : op' = op := Option.some.inj (hop.symm.trans h)
    exact hexec

end

/-! ### The registers and `pc` after one cycle -/

section
variable (c : Mcw) (f : Fields) (s : State)

/-- The one write port: a cycle changes at most register A, and that only under RegWrite (R13). -/
theorem State.eq_addrA_and_regWrite_of_cycle_readReg_ne {q : RegIdx}
    (h : (State.cycle c f s).readReg q ≠ s.readReg q) : q = regOfAddr f.addrA ∧ c.regWrite = true := by
  have hregs := State.cycle_regs c f s
  cases hw : c.regWrite with
  | false => exact absurd (by simp [State.readReg, hregs, hw]) h
  | true =>
    obtain ⟨v, hv⟩ : ∃ v, (State.cycle c f s).regs = (s.writeReg (regOfAddr f.addrA) v).regs :=
      ⟨_, hregs.trans (if_pos hw)⟩
    have hread : (State.cycle c f s).readReg q = (s.writeReg (regOfAddr f.addrA) v).readReg q := by
      simp only [State.readReg, hv]
    exact ⟨by_contra fun hq => h (hread.trans (State.readReg_writeReg_of_ne s v hq)), rfl⟩

theorem State.cycle_pc_of_pcSrc (h : c.pcSrc = true) : (State.cycle c f s).pc = jumpTarget s.pc f := by
  simp [State.cycle_pc, mux, h]

theorem State.cycle_pc_of_not_pcSrc (h : c.pcSrc = false) :
    (State.cycle c f s).pc =
      if branchSelect c (s.readReg (regOfAddr f.addrA)) then s.pc + f.immediate16 else s.pc + 1 := by
  cases hb : branchSelect c (s.readReg (regOfAddr f.addrA)) <;> simp [State.cycle_pc, mux, h, hb, pcAddend, addWords]

theorem State.cycle_pc_of_straight (hp : c.pcSrc = false) (hb : c.branch = false) :
    (State.cycle c f s).pc = s.pc + 1 := by
  simp [State.cycle_pc_of_not_pcSrc c f s hp, branchSelect, hb]

end

/-- R14 for an executed instruction, under the default control words: seven go straight on, BEZ and J do not. -/
theorem exec_pc {s : State} (i : Instr) (hs : s.UsesDefaultTable) :
    ∃ t, exec i s = .next t ∧ t.pc = nextPcR14 i s := by
  cases i with
  | halt => exact ⟨_, rfl, rfl⟩
  | add | sub | nor | li | mr | addi | mw =>
    exact ⟨_, rfl, State.cycle_pc_of_straight _ _ s (by rw [hs]; rfl) (by rw [hs]; rfl)⟩
  | bez ra off =>
    refine ⟨_, rfl, (State.cycle_pc_of_not_pcSrc _ _ s (by rw [hs]; rfl)).trans ?_⟩
    have hb : (controlWord s.params.mcwTable .bez).branch = true := by rw [hs]; rfl
    simp [branchSelect, hb, iTypeFields, nextPcR14, extend16]
  | j target => exact ⟨_, rfl, State.cycle_pc_of_pcSrc _ _ s (by rw [hs]; rfl)⟩

/-- R93's RegWrite column. -/
theorem defaultMcwTable_regWrite_iff (op : Op) :
    (controlWord defaultMcwTable op).regWrite = true ↔
      op = .add ∨ op = .sub ∨ op = .nor ∨ op = .li ∨ op = .addi ∨ op = .mr := by
  cases op <;> decide

/-! ### The host's inputs -/

@[simp] theorem State.assertReset_readReg (s : State) (r : RegIdx) : s.assertReset.readReg r = 0x0000 := by
  simp [State.readReg, State.assertReset, registerUpdate]

/-- A stopped machine ignores the clock (R100). -/
theorem hostAct_clk_of_not_running {s : State} (h : s.run ≠ .running) : hostAct .clk s = s :=
  tick_state_of_next (step_of_not_running h)

end Sys2Proof.Machine

namespace Sys2Proof.Proofs

open Sys2Proof.Machine

/-- Settles O30. The frame of the write port comes from `exec_cases`; the written value is `State.cycle_regs` with the
fields of the encoded word. -/
theorem oneWritePortForRegisterA : Obligations.OneWritePortForRegisterA := by
  refine ⟨?changed, ?written, ?halt, defaultMcwTable_regWrite_iff, rfl, State.assertReset_readReg, fun _ => rfl⟩
  case changed =>
    intro i s t ht q hq
    obtain ⟨-, hexec⟩ | ⟨op, hop, hexec⟩ := exec_cases i s
    · obtain rfl : s.enterHalted = t := Host.Outcome.next.inj (hexec.symm.trans ht)
      exact absurd rfl hq
    · obtain rfl := Host.Outcome.next.inj (hexec.symm.trans ht)
      obtain ⟨hqa, hw⟩ := State.eq_addrA_and_regWrite_of_cycle_readReg_ne _ _ s hq
      exact ⟨hqa.trans (regOfAddr_addrA_instrFields i), op, hop, hw⟩
  case written =>
    intro i op s hop
    refine ⟨_, exec_of_instrOp s hop, ?_⟩
    simp only [State.cycle_regs, aluOperandB, regOfAddr_addrA_instrFields, regOfAddr_addrB_instrFields,
      immediate16_instrFields]
  case halt =>
    rintro s t ⟨⟩
    rfl

/-- Settles O31, by `exec_pc` for a word that decodes and the lemmas on `tick` for the others; a `pc` of `0x8000` or more
is a negative address, so the fetch there is the halt word. -/
theorem programCounterAdvance : Obligations.ProgramCounterAdvance := by
  intro s hs _
  refine ⟨?decoded, ?rejected, ?stopped, ?high⟩
  case decoded =>
    intro i hr hd
    rw [step_of_decode_ok hr hd]
    exact exec_pc i hs
  case rejected =>
    intro e hr hd
    rw [tick_state_of_decode_error hr hd, State.enterFaulted_pc]
  case stopped =>
    intro hr
    rw [tick_state_of_next (step_of_not_running hr)]
  case high =>
    intro hr hpc
    have hmsb : s.pc.msb = true := by simpa [BitVec.msb_eq_decide] using hpc
    exact step_of_ifetch_zero hr (State.ifetch_of_not_inRange (inRange_eq_false_of_msb _ hmsb))

/-- Settles O42. After the reset the machine fetches from address 0; of the other inputs the clock does nothing to a
stopped machine, and `clearData` keeps `run`. -/
theorem resetInputRestartsTheMachine : Obligations.ResetInputRestartsTheMachine := by
  refine ⟨fun s => ⟨s.assertReset_readReg, rfl, rfl, rfl, rfl, rfl, rfl⟩, ?firstWordZero, ?onlyExit⟩
  case firstWordZero =>
    intro s h
    exact step_of_ifetch_zero rfl h
  case onlyExit =>
    intro i s hstop hrun
    cases i with
    | clk => exact absurd (hostAct_clk_of_not_running hstop ▸ hrun) hstop
    | reset => rfl
    | clearData => exact absurd hrun hstop

/-- Settles O43: the data memory `clearData` leaves lists no word. -/
theorem clearDataZeroesDataMemoryOnly : Obligations.ClearDataZeroesDataMemoryOnly := by
  intro s
  have hread : ∀ k, Memory.read (hostAct .clearData s).dmem k = 0x0000 := fun _ => rfl
  refine ⟨fun a => ?_, hread, rfl⟩
  simp only [State.memRead, Memory.readAt, hread, ite_self]

end Sys2Proof.Proofs
end

section
/-! The memory family (20_memory.md): the read and write primitives over a signed address (R32, R33), the order of the two
accesses of one cycle (R41), instruction memory as its image (R44). First the access primitives on one memory, then on the
state, then a cycle's accesses and what the host's inputs keep; the four obligations come last. -/

namespace Sys2Proof

open Machine

/-! ### The access primitives on one memory -/

section
variable {cap : Nat} {m : Memory} {a b : Word}

theorem inRange_iff_toInt : inRange cap a = true ↔ 0 ≤ a.toInt ∧ a.toInt < (cap : Int) := by
  rw [inRange_iff, toInteger_eq_toInt]

theorem cellIndex_eq_toNat_toInt (a : Word) : cellIndex a = a.toInt.toNat := by
  rw [cellIndex, toInteger_eq_toInt]

/-- Addresses in range are not negative, so different ones name different words. -/
theorem cellIndex_inj (ha : inRange cap a = true) (hb : inRange cap b = true) (h : cellIndex a = cellIndex b) :
    a = b := by
  obtain ⟨ha0, -⟩ := inRange_iff_toInt.mp ha
  obtain ⟨hb0, -⟩ := inRange_iff_toInt.mp hb
  rw [cellIndex_eq_toNat_toInt, cellIndex_eq_toNat_toInt] at h
  exact BitVec.eq_of_toInt_eq (by omega)

theorem Memory.readAt_of_inRange (h : inRange cap a = true) : m.readAt cap a = m.read (cellIndex a) := if_pos h

theorem Memory.readAt_of_not_inRange (h : inRange cap a = false) : m.readAt cap a = 0x0000 := by
  simp [Memory.readAt, h]

theorem Memory.writeAt_of_inRange (v : Word) (h : inRange cap a = true) :
    m.writeAt cap a v = m.write (cellIndex a) v := if_pos h

theorem Memory.writeAt_of_not_inRange (v : Word) (h : inRange cap a = false) : m.writeAt cap a v = m := by
  simp [Memory.writeAt, h]

/-- R32 in the words of the rule: the range test and the word are those of the signed address. -/
theorem Memory.readAt_eq_ite_toInt (cap : Nat) (m : Memory) (a : Word) :
    m.readAt cap a = if 0 ≤ a.toInt ∧ a.toInt < (cap : Int) then m.read a.toInt.toNat else 0x0000 := by
  simp only [Memory.readAt, inRange_iff_toInt, cellIndex_eq_toNat_toInt]

theorem Memory.readAt_writeAt_self (v : Word) (h : inRange cap a = true) : (m.writeAt cap a v).readAt cap a = v := by
  rw [Memory.writeAt_of_inRange v h, Memory.readAt_of_inRange h, Memory.read_write_self]

theorem Memory.read_writeAt_of_ne {k : Nat} (v : Word) (h : k ≠ cellIndex a) :
    (m.writeAt cap a v).read k = m.read k := by
  cases ha : inRange cap a with
  | true => rw [Memory.writeAt_of_inRange v ha, Memory.read_write_of_ne m v h]
  | false => rw [Memory.writeAt_of_not_inRange v ha]

theorem Memory.readAt_writeAt_of_ne (v : Word) (h : b ≠ a) : (m.writeAt cap a v).readAt cap b = m.readAt cap b := by
  cases ha : inRange cap a with
  | false => rw [Memory.writeAt_of_not_inRange v ha]
  | true =>
    cases hb : inRange cap b with
    | false => rw [Memory.readAt_of_not_inRange hb, Memory.readAt_of_not_inRange hb]
    | true =>
      rw [Memory.readAt_of_inRange hb, Memory.readAt_of_inRange hb]
      exact Memory.read_writeAt_of_ne v fun hk => h (cellIndex_inj hb ha hk)

end

end Sys2Proof

namespace Sys2Proof.Machine

/-! ### The access primitives on the state -/

section
variable {s : State} {a b : Word}

theorem State.memRead_memWrite_self (v : Word) (h : inRange s.params.dmemCap a = true) :
    (s.memWrite a v).memRead a = v :=
  Memory.readAt_writeAt_self v h

theorem State.memRead_memWrite_of_ne (v : Word) (h : b ≠ a) : (s.memWrite a v).memRead b = s.memRead b :=
  Memory.readAt_writeAt_of_ne v h

theorem State.memWrite_of_not_inRange (v : Word) (h : inRange s.params.dmemCap a = false) : s.memWrite a v = s := by
  rw [State.memWrite, Memory.writeAt_of_not_inRange v h]

theorem State.memRead_of_not_inRange (h : inRange s.params.dmemCap a = false) : s.memRead a = 0x0000 :=
  Memory.readAt_of_not_inRange h

end

/-! ### The two data accesses of one cycle -/

section
variable {c : Mcw} (f : Fields) (s : State)

/-- Under MemWrite the data memory a cycle leaves is the one its write leaves, at the old `mar`. -/
theorem State.cycle_dmem_of_memWrite (h : c.memWrite = true) :
    (State.cycle c f s).dmem = (s.memWrite s.mar (s.readReg (regOfAddr f.addrA))).dmem := by
  rw [State.cycle_dmem, if_pos h, State.memWrite_dmem]

theorem State.cycle_memRead_of_memWrite (a : Word) (h : c.memWrite = true) :
    (State.cycle c f s).memRead a = (s.memWrite s.mar (s.readReg (regOfAddr f.addrA))).memRead a := by
  simp only [State.memRead, State.cycle_dmem_of_memWrite f s h, State.cycle_params, State.memWrite_params]

/-- The write comes before the read (R41): the memory value written back to register A is the word that data memory holds
at the old `mar` after the cycle. -/
theorem State.cycle_readReg_addrA_of_memory_writeback (hw : c.memWrite = true) (hr : c.regWrite = true)
    (hd : c.regDst = false) :
    (State.cycle c f s).readReg (regOfAddr f.addrA) = (State.cycle c f s).memRead s.mar := by
  rw [State.cycle_memRead_of_memWrite f s s.mar hw]
  simp [State.readReg, State.cycle_regs, hw, hr, hd, mux]

end

/-- R93's MemWrite and RegWrite columns are never set together. -/
theorem defaultMcwTable_not_memWrite_and_regWrite (op : Op) :
    ¬((controlWord defaultMcwTable op).memWrite = true ∧ (controlWord defaultMcwTable op).regWrite = true) := by
  cases op <;> decide

/-! ### What a tick and the host's inputs keep -/

/-- What an instruction can leave: the halted state, or the state after one cycle. -/
theorem exec_next_cases {i : Instr} {s t : State} (h : exec i s = .next t) :
    t = s.enterHalted ∨ ∃ c f, t = State.cycle c f s := by
  obtain ⟨-, hexec⟩ | ⟨op, -, hexec⟩ := exec_cases i s
  · exact .inl (Host.Outcome.next.inj (h.symm.trans hexec))
  · exact .inr ⟨_, _, Host.Outcome.next.inj (h.symm.trans hexec)⟩

theorem exec_imem {i : Instr} {s t : State} (h : exec i s = .next t) : t.imem = s.imem := by
  obtain rfl | ⟨c, f, rfl⟩ := exec_next_cases h
  · exact s.enterHalted_imem
  · exact State.cycle_imem c f s

theorem exec_params {i : Instr} {s t : State} (h : exec i s = .next t) : t.params = s.params := by
  obtain rfl | ⟨c, f, rfl⟩ := exec_next_cases h
  · exact s.enterHalted_params
  · exact State.cycle_params c f s

/-- No instruction faults in execution (R142). -/
theorem exists_exec_eq_next (i : Instr) (s : State) : ∃ t, exec i s = .next t := by
  obtain ⟨-, hexec⟩ | ⟨op, -, hexec⟩ := exec_cases i s
  · exact ⟨_, hexec⟩
  · exact ⟨_, hexec⟩

/-- What a clock pulse can leave: the same state, a decode failure's state, or what one instruction answers. -/
theorem tick_state_cases (s : State) :
    (tick s).state = s ∨ (tick s).state = s.enterFaulted ∨ ∃ i, exec i s = .next (tick s).state := by
  by_cases hr : s.run = .running
  · cases hd : decode s.ifetch with
    | error e => exact .inr (.inl (tick_state_of_decode_error hr hd))
    | ok i =>
      obtain ⟨t, ht⟩ := exists_exec_eq_next i s
      refine .inr (.inr ⟨i, ?_⟩)
      rw [tick_state_of_next ((step_of_decode_ok hr hd).trans ht), ht]
  · exact .inl (tick_state_of_next (step_of_not_running hr))

theorem tick_state_imem (s : State) : (tick s).state.imem = s.imem := by
  obtain h | h | ⟨i, h⟩ := tick_state_cases s
  · rw [h]
  · rw [h, State.enterFaulted_imem]
  · exact exec_imem h

theorem tick_state_params (s : State) : (tick s).state.params = s.params := by
  obtain h | h | ⟨i, h⟩ := tick_state_cases s
  · rw [h]
  · rw [h, State.enterFaulted_params]
  · exact exec_params h

theorem hostAct_imem_of_ne_reset {i : HostInput} (s : State) (h : i ≠ .reset) : (hostAct i s).imem = s.imem := by
  cases i with
  | clk => exact tick_state_imem s
  | reset => exact absurd rfl h
  | clearData => rfl

theorem hostAct_params (i : HostInput) (s : State) : (hostAct i s).params = s.params := by
  cases i with
  | clk => exact tick_state_params s
  | reset | clearData => rfl

/-- What every host input keeps, every sequence of host inputs keeps. -/
theorem hostActs_induction {P : State → Prop} (hP : ∀ i s, P s → P (hostAct i s)) (is : List HostInput) {s : State}
    (hs : P s) : P (hostActs is s) := by
  induction is generalizing s with
  | nil => exact hs
  | cons i rest ih => exact ih (hP i s hs)

theorem hostActs_params (is : List HostInput) (s : State) : (hostActs is s).params = s.params :=
  hostActs_induction (P := fun t => t.params = s.params) (fun i t ht => (hostAct_params i t).trans ht) is rfl

/-- R44 as an invariant: `reset` loads the image, the other inputs change neither instruction memory nor the image. -/
theorem hostAct_imem_eq_imemInit (i : HostInput) (s : State) (h : s.imem = s.params.imemInit) :
    (hostAct i s).imem = (hostAct i s).params.imemInit := by
  cases i with
  | reset => rfl
  | clk | clearData => rw [hostAct_imem_of_ne_reset s (by decide), hostAct_params, h]

theorem hostActs_imem_eq_imemInit (is : List HostInput) {s : State} (h : s.imem = s.params.imemInit) :
    (hostActs is s).imem = s.params.imemInit := by
  rw [hostActs_induction (P := fun t => t.imem = t.params.imemInit) hostAct_imem_eq_imemInit is h, hostActs_params]

end Sys2Proof.Machine

namespace Sys2Proof.Proofs

open Sys2Proof.Machine

/-- Settles O35. A store reaches data memory only; the power-on state meets the invariant of `hostAct_imem_eq_imemInit`,
and its parameters stay. -/
theorem instructionMemoryIsItsImage : Obligations.InstructionMemoryIsItsImage := by
  refine ⟨?store, fun _ _ _ => exec_imem, fun _ s => hostAct_imem_of_ne_reset s, fun _ => rfl, ?fromPowerOn⟩
  case store =>
    intro s a v b
    simp only [State.imemAt, State.memWrite_imem, State.memWrite_params]
  case fromPowerOn =>
    intro p is
    exact hostActs_imem_eq_imemInit (s := State.powerOn p) is rfl

/-- Settles O37, by R32's equation for each of the two memories. -/
theorem readsGiveTheWordOrZero : Obligations.ReadsGiveTheWordOrZero :=
  fun _ a => ⟨Memory.readAt_eq_ite_toInt _ _ a, Memory.readAt_eq_ite_toInt _ _ a⟩

/-- Settles O38: the signed range condition is the range test of the primitives, whose laws give each clause. -/
theorem writesAreReadBackAndLocal : Obligations.WritesAreReadBackAndLocal := by
  intro s a v
  refine ⟨?inside, ?outside, rfl⟩
  case inside =>
    intro h
    refine ⟨State.memRead_memWrite_self v (inRange_iff_toInt.mpr h), fun _ => State.memRead_memWrite_of_ne v, ?_⟩
    intro k hk
    exact Memory.read_writeAt_of_ne v (cellIndex_eq_toNat_toInt a ▸ hk)
  case outside =>
    intro h
    exact State.memWrite_of_not_inRange v (Bool.eq_false_of_not_eq_true (mt inRange_iff_toInt.mp h))

/-- Settles O40: register A is written with the word data memory holds at the old `mar` after the cycle's store, which is
the stored word in range and zero out of range. -/
theorem sameCycleWriteIsRead : Obligations.SameCycleWriteIsRead := by
  refine ⟨?oneCycle, defaultMcwTable_not_memWrite_and_regWrite⟩
  intro c f s hw hr hd
  have hback := State.cycle_readReg_addrA_of_memory_writeback f s hw hr hd
  refine ⟨fun h => ?inside, fun h => ?outside⟩
  case inside =>
    have hstored : (State.cycle c f s).memRead s.mar = s.readReg (regOfAddr f.addrA) :=
      (State.cycle_memRead_of_memWrite f s s.mar hw).trans (State.memRead_memWrite_self _ h)
    exact ⟨hstored, hback.trans hstored⟩
  case outside =>
    have hdropped : (State.cycle c f s).dmem = s.dmem := by
      rw [State.cycle_dmem_of_memWrite f s hw, State.memWrite_of_not_inRange _ h]
    exact ⟨hdropped, hback.trans (State.memRead_of_not_inRange (State.cycle_params c f s ▸ h))⟩

end Sys2Proof.Proofs
end

section
/-! The encoding family (30_encoding.md): the decode table as `match` and `mask` (R59) and the register addresses (R55).
First what each mask leaves of a word, then what `decode` answers in terms of the rows, then the list of the ten rows;
the two obligations come last. -/

namespace Sys2Proof

open Laws Machine

/-! ### A word under a mask -/

section
variable (w : Word)

theorem opcodeField_append_addrJField : (opcodeField w ++ addrJField w : BitVec (4 + 12)) = w :=
  BitVec.extractLsb'_append_extractLsb' (w := 4) (len := 12)

theorem extractLsb'_append_funcField : (w.extractLsb' 4 8 ++ funcField w : BitVec (8 + 4)) = addrJField w :=
  BitVec.extractLsb'_append_extractLsb'_eq_extractLsb' rfl

theorem and_0xFFFF : w &&& 0xFFFF = w := BitVec.and_allOnes

theorem and_0xF000 : w &&& 0xF000 = (opcodeField w ++ 0#12 : BitVec (4 + 12)) := by
  conv_lhs => rw [← opcodeField_append_addrJField w]
  exact jType_masked (opcodeField w) (addrJField w)

theorem and_0xF00F : w &&& 0xF00F = (opcodeField w ++ (0#8 ++ funcField w) : BitVec (4 + (8 + 4))) := by
  have hMask : (0xF00F : Word) = (BitVec.allOnes 4 ++ (0#8 ++ BitVec.allOnes 4) : BitVec (4 + (8 + 4))) := rfl
  conv_lhs => rw [← opcodeField_append_addrJField w, ← extractLsb'_append_funcField, hMask]
  rw [BitVec.and_append, BitVec.and_append, BitVec.and_allOnes, BitVec.and_allOnes, BitVec.and_zero]

end

/-! ### What the decoder answers -/

/-- The Controller's lookup (R90) finds an operation exactly for the words its row of R59 selects: the mask leaves the
opcode, and with it the function under opcode `0000`. -/
theorem controllerDecode_eq_some_iff_row (w : Word) (op : Op) :
    controllerDecode (opcodeField w) (funcField w) = some op ↔
      w &&& rowMask (instrOf op w) = rowMatch (instrOf op w) := by
  cases op with
  | add | sub | nor =>
    simp only [instrOf, rowMask, rowMatch, and_0xF00F]
    generalize opcodeField w = opcode, funcField w = func
    revert opcode func
    decide
  | li | mr | addi | mw | bez | j =>
    simp only [instrOf, rowMask, rowMatch, and_0xF000]
    generalize opcodeField w = opcode, funcField w = func
    revert opcode func
    decide

/-- What decoding can be (R57): the halt word, a row of the Controller's table, or a rejection. -/
theorem decode_cases (w : Word) :
    (w = 0x0000 ∧ decode w = .ok .halt) ∨
      (∃ op, controllerDecode (opcodeField w) (funcField w) = some op ∧ decode w = .ok (instrOf op w)) ∨
      (controllerDecode (opcodeField w) (funcField w) = none ∧ ∃ e, decode w = .error e) := by
  by_cases hw : w = 0x0000
  · exact .inl ⟨hw, if_pos hw⟩
  · cases hc : controllerDecode (opcodeField w) (funcField w) with
    | some op => exact .inr (.inl ⟨op, rfl, by simp only [decode, if_neg hw, hc]⟩)
    | none =>
      refine .inr (.inr ⟨rfl, ?_⟩)
      simp only [decode, if_neg hw, hc]
      split <;> exact ⟨_, rfl⟩

@[simp] theorem instrOp_instrOf (op : Op) (w : Word) : instrOp (instrOf op w) = some op := by
  cases op <;> rfl

section
variable {w : Word}

theorem decode_eq_ok_halt_iff : decode w = .ok .halt ↔ w = 0x0000 := by
  refine ⟨fun h => ?_, fun h => if_pos h⟩
  obtain ⟨hw, -⟩ | ⟨op, -, hd⟩ | ⟨-, e, he⟩ := decode_cases w
  · exact hw
  · have hop := instrOp_instrOf op w
    rw [Except.ok.inj (hd.symm.trans h)] at hop
    nomatch hop
  · nomatch he.symm.trans h

/-- No premise excludes the halt word: the Controller's table has no row for it. -/
theorem decode_of_controllerDecode {op : Op} (h : controllerDecode (opcodeField w) (funcField w) = some op) :
    decode w = .ok (instrOf op w) := by
  obtain ⟨rfl, -⟩ | ⟨op', hop, hd⟩ | ⟨hnone, -⟩ := decode_cases w
  · nomatch h
  · rwa [Option.some.inj (hop.symm.trans h)] at hd
  · nomatch hnone.symm.trans h

/-- A word decodes to an instruction with a row iff the row selects it and its fields are the operands. -/
theorem decode_eq_ok_iff_row {i : Instr} {op : Op} (hi : instrOp i = some op) :
    decode w = .ok i ↔ w &&& rowMask i = rowMatch i ∧ instrOf op w = i := by
  constructor
  · intro h
    obtain ⟨-, hd⟩ | ⟨op', hop', hd⟩ | ⟨-, e, he⟩ := decode_cases w
    · obtain rfl := Except.ok.inj (hd.symm.trans h)
      nomatch hi
    · obtain rfl := Except.ok.inj (hd.symm.trans h)
      obtain rfl := Option.some.inj ((instrOp_instrOf op' w).symm.trans hi)
      exact ⟨(controllerDecode_eq_some_iff_row w op').mp hop', rfl⟩
    · nomatch he.symm.trans h
  · rintro ⟨hrow, rfl⟩
    exact decode_of_controllerDecode ((controllerDecode_eq_some_iff_row w op).mpr hrow)

theorem exists_decode_eq_error_iff :
    (∃ e, decode w = .error e) ↔ w ≠ 0x0000 ∧ ∀ op, controllerDecode (opcodeField w) (funcField w) ≠ some op := by
  constructor
  · rintro ⟨e, he⟩
    refine ⟨fun h0 => ?_, fun op hop => ?_⟩
    · nomatch he.symm.trans (decode_eq_ok_halt_iff.mpr h0)
    · nomatch he.symm.trans (decode_of_controllerDecode hop)
  · rintro ⟨hw, hop⟩
    obtain ⟨h0, -⟩ | ⟨op, h, -⟩ | ⟨-, he⟩ := decode_cases w
    · exact absurd h0 hw
    · exact absurd h (hop op)
    · exact he

end

/-! ### The list of the ten rows -/

/-- The rows of R59 are the halt word's and one for each operation of the Controller's table. -/
theorem forall_mem_rowPatterns (w : Word) {P : Word × Word → Prop} :
    (∀ p ∈ rowPatterns, P p) ↔
      P (0x0000, 0xFFFF) ∧ ∀ op, P (rowMatch (instrOf op w), rowMask (instrOf op w)) := by
  simp only [rowPatterns, List.forall_mem_cons]
  constructor
  · rintro ⟨hhalt, hadd, hsub, hnor, hli, hmr, haddi, hmw, hbez, hj, -⟩
    refine ⟨hhalt, fun op => ?_⟩
    cases op <;> assumption
  · rintro ⟨hhalt, hop⟩
    exact ⟨hhalt, hop .add, hop .sub, hop .nor, hop .li, hop .mr, hop .addi, hop .mw, hop .bez, hop .j, nofun⟩

/-- Two patterns that select a common word agree on the bits under both masks. -/
theorem match_and_mask_comm_of_selected {w : Word} {p q : Word × Word} (hp : w &&& p.2 = p.1) (hq : w &&& q.2 = q.1) :
    p.1 &&& q.2 = q.1 &&& p.2 := by
  rw [← hp, ← hq, BitVec.and_assoc, BitVec.and_assoc, BitVec.and_comm p.2]

theorem rowPatterns_pairwise_disagree : rowPatterns.Pairwise (fun p q => p.1 &&& q.2 ≠ q.1 &&& p.2) := by
  decide

theorem length_filter_rowPatterns_le_one (w : Word) :
    (rowPatterns.filter (fun p => w &&& p.2 == p.1)).length ≤ 1 := by
  by_contra! hlen
  have hdisagree := List.pairwise_iff_getElem.mp (rowPatterns_pairwise_disagree.filter (fun p => w &&& p.2 == p.1))
  have hselected : ∀ p ∈ rowPatterns.filter (fun p => w &&& p.2 == p.1), w &&& p.2 = p.1 :=
    fun p hp => eq_of_beq (List.mem_filter.mp hp).2
  exact hdisagree 0 1 (by omega) hlen Nat.zero_lt_one
    (match_and_mask_comm_of_selected (hselected _ (List.getElem_mem _)) (hselected _ (List.getElem_mem _)))

end Sys2Proof

namespace Sys2Proof.Machine

/-! ### Register addresses -/

/-- A field widened by a leading zero is read as unsigned, its sign bit being that zero (R55). -/
theorem toInteger_zero_append {n : Nat} (r : BitVec n) : toInteger (0#1 ++ r) = (r.toNat : Int) := by
  rw [toInteger_eq_toInt, BitVec.toInt_zero_append, if_neg Nat.one_ne_zero]

end Sys2Proof.Machine

namespace Sys2Proof.Proofs

open Sys2Proof.Machine

/-- Settles O3. Each row is `decode_eq_ok_iff_row` at its instruction; the rejected words are those no row selects; two
rows differ on a bit that both masks keep. -/
theorem decoderSelectsTheRowsOfTheTable : Obligations.DecoderSelectsTheRowsOfTheTable := by
  intro w
  refine ⟨?halt, ?add, ?sub, ?nor, ?li, ?mr, ?addi, ?mw, ?bez, ?j, ?rejected, length_filter_rowPatterns_le_one w⟩
  case halt => rw [and_0xFFFF, decode_eq_ok_halt_iff]
  case add | sub | nor | li | mr | addi | mw | bez | j =>
    intros
    refine (decode_eq_ok_iff_row rfl).trans (and_congr_right' ?_)
    simp [instrOf, regAField, regBField, imm8Field, addrJField]
  case rejected =>
    simp only [forall_mem_rowPatterns w, and_0xFFFF, ne_eq, ← controllerDecode_eq_some_iff_row]
    exact exists_decode_eq_error_iff

/-- Settles O7: both addresses are a 4-bit field under a leading zero. -/
theorem registerAddressIsTheUnsignedField : Obligations.RegisterAddressIsTheUnsignedField := by
  intro ins
  exact ⟨toInteger_zero_append _, toInteger_zero_append _, congrArg BitVec.toNat (regOfAddr_zero_append _),
    congrArg BitVec.toNat (regOfAddr_zero_append _), BitVec.isLt _, BitVec.isLt _⟩

end Sys2Proof.Proofs
end

section
/-! The primitives family (40_primitives.md): the signed value (R70), negation by the scan for the lowest set bit (R72),
the ALU's subtraction, NOR and pass-through (R76 to R78), sign extension (R79), the register update (R82). First what each
primitive answers in terms of the bit vectors' own operations, then its laws; the five obligations come last. -/

namespace Sys2Proof.Machine

/-! ### The signed value and negation -/

/-- The closed form of R72 is two's-complement negation. -/
theorem negate_eq_neg {n : Nat} (w : BitVec n) : negate w = -w := (BitVec.neg_eq_not_add w).symm

section
variable {n : Nat} {w : BitVec n}

theorem toInteger_of_msb_false (h : w.msb = false) : toInteger w = (w.toNat : Int) := by
  simp [toInteger, h]

theorem toInteger_of_msb_true (h : w.msb = true) : toInteger w = -((negate w).toNat : Int) := if_pos h

theorem toInteger_eq_toNat_sub_of_msb_true (h : w.msb = true) : toInteger w = (w.toNat : Int) - 2 ^ n := by
  simp [toInteger_eq_toInt, BitVec.toInt_eq_msb_cond, h]

/-- Only the zero word is read as zero, having one signed value per word. -/
theorem toInteger_eq_zero_iff : toInteger w = 0 ↔ ∀ i, w.getLsbD i = false := by
  have hzero : toInteger w = 0 ↔ w = 0#n := by rw [toInteger_eq_toInt, ← BitVec.toInt_zero (w := n), BitVec.toInt_inj]
  rw [hzero]
  constructor
  · rintro rfl i
    exact BitVec.getLsbD_zero
  · intro h
    exact BitVec.eq_of_getLsbD_eq fun i _ => (h i).trans BitVec.getLsbD_zero.symm

/-- The most negative word has no opposite of its width; every other word has. -/
theorem toInteger_negate_of_ne_intMin (h : w ≠ BitVec.intMin n) : toInteger (negate w) = -toInteger w := by
  rw [toInteger_eq_toInt, toInteger_eq_toInt, negate_eq_neg, BitVec.toInt_neg_of_ne_intMin h]

end

/-! ### The bit scan -/

theorem getLsbD_ofBits (f : Nat → Bool) (n i : Nat) : (ofBits f n).getLsbD i = (decide (i < n) && f i) := by
  induction n with
  | zero => simp [ofBits]
  | succ n ih =>
    rw [ofBits, BitVec.getLsbD_cons, ih]
    by_cases h : i = n
    · simp [h]
    · have hlt : i < n + 1 ↔ i < n := by omega
      simp [h, hlt]

theorem anySetBelow_iff {n : Nat} (w : BitVec n) (i : Nat) :
    anySetBelow w i = true ↔ ∃ j < i, w.getLsbD j = true := by
  induction i with
  | zero => simp [anySetBelow]
  | succ i ih => rw [anySetBelow, Bool.or_eq_true, ih, Nat.exists_lt_succ_right]

/-- Negation inverts exactly the bits above the lowest set bit, which is what the scan does. -/
theorem negateByScan_eq_negate {n : Nat} (w : BitVec n) : negateByScan w = negate w := by
  refine BitVec.eq_of_getLsbD_eq fun i hi => ?_
  rw [negateByScan, getLsbD_ofBits, negate_eq_neg, BitVec.getLsbD_neg]
  by_cases hset : ∃ j < i, w.getLsbD j = true
  · rw [if_pos ((anySetBelow_iff w i).mpr hset), decide_eq_true hi, decide_eq_true hset]
    simp
  · rw [if_neg (mt (anySetBelow_iff w i).mp hset), decide_eq_true hi, decide_eq_false hset]
    simp

/-! ### The ALU -/

section
variable {n : Nat} (a b : BitVec n)

theorem aluOperate_add : aluOperate 0b00#2 a b = addWords a b := rfl

theorem aluOperate_sub : aluOperate 0b01#2 a b = addWords a (negate b) := rfl

theorem aluOperate_nor : aluOperate 0b10#2 a b = norWords a b := rfl

theorem aluOperate_pass : aluOperate 0b11#2 a b = a := rfl

/-- Adding the negation (R76) is subtraction modulo `2^n`. -/
theorem aluOperate_sub_eq_sub : aluOperate 0b01#2 a b = a - b := by
  rw [aluOperate_sub, negate_eq_neg, addWords, BitVec.sub_eq_add_neg]

theorem getLsbD_norWords {i : Nat} (h : i < n) :
    (norWords a b).getLsbD i = !(a.getLsbD i || b.getLsbD i) := by
  simp [norWords, h]

theorem norWords_self : norWords a a = ~~~a := by rw [norWords, BitVec.or_self]

theorem norWords_zero : norWords a 0#n = ~~~a := by rw [norWords, BitVec.or_zero]

theorem norWords_allOnes : norWords (BitVec.allOnes n) b = 0#n := by
  rw [norWords, BitVec.allOnes_or, BitVec.not_allOnes]

end

/-- R93's ALUop column holds no `11`. -/
theorem defaultMcwTable_aluOp_ne_pass (op : Op) : (controlWord defaultMcwTable op).aluOp ≠ 0b11#2 := by
  cases op <;> decide

/-! ### Sign extension -/

section
variable {N m i : Nat} {f : BitVec m}

theorem getLsbD_extend_of_lt (h : i < m) : (extend N f).getLsbD i = f.getLsbD i := by
  have hwide : i < max N m := h.trans_le (Nat.le_max_right N m)
  rw [extend, BitVec.getLsbD_signExtend, decide_eq_true hwide, Bool.true_and, if_pos h]

theorem getLsbD_extend_of_le (hm : m ≤ i) (hN : i < N) : (extend N f).getLsbD i = f.msb := by
  have hwide : i < max N m := hN.trans_le (Nat.le_max_left N m)
  rw [extend, BitVec.getLsbD_signExtend, decide_eq_true hwide, Bool.true_and, if_neg (Nat.not_lt.mpr hm)]

/-- The extended field is at least as wide as the field, so it is read as the same number. -/
theorem toInteger_extend : toInteger (extend N f) = toInteger f := by
  rw [toInteger_eq_toInt, toInteger_eq_toInt, extend, BitVec.toInt_signExtend_of_le (Nat.le_max_right N m)]

theorem toNat_extend_of_ge (h : N ≤ m) : (extend N f).toNat = f.toNat := by
  rw [extend, Nat.max_eq_right h, BitVec.signExtend_eq]

end

/-! ### The register update -/

section
variable {W m : Nat}

/-- A value no wider than the register is padded with zeros on the left (R82). -/
theorem registerUpdate_of_le (v : BitVec m) (h : m ≤ W) : registerUpdate W (some ⟨m, v⟩) = v.setWidth W := if_pos h

/-- Of a wider value the bits beyond the register's width are dropped on the right (R82, C1). -/
theorem registerUpdate_of_gt (v : BitVec m) (h : W < m) :
    registerUpdate W (some ⟨m, v⟩) = (v >>> (m - W)).setWidth W := if_neg (Nat.not_le.mpr h)

theorem registerUpdate_same (v : BitVec W) : registerUpdate W (some ⟨W, v⟩) = v := by
  rw [registerUpdate_of_le v (le_refl W), BitVec.setWidth_eq]

end

end Sys2Proof.Machine

namespace Sys2Proof.Proofs

open Sys2Proof.Machine

/-- Settles O48. The source's definition is the two's-complement value (`toInteger_eq_toInt`), whose range is that of the
width. -/
theorem toIntegerIsTwosComplement : Obligations.ToIntegerIsTwosComplement := by
  intro n w _
  have hlow : -(2 ^ (n - 1) : Int) ≤ toInteger w := toInteger_eq_toInt w ▸ BitVec.le_toInt w
  have hhigh : toInteger w < 2 ^ (n - 1) := toInteger_eq_toInt w ▸ BitVec.toInt_lt
  exact ⟨toInteger_eq_toInt w, toInteger_of_msb_false,
    fun h => ⟨toInteger_eq_toNat_sub_of_msb_true h, toInteger_of_msb_true h⟩,
    hlow, Int.le_sub_one_of_lt hhigh, toInteger_eq_zero_iff, rfl⟩

/-- Settles O50. The scan is `negateByScan_eq_negate`; the laws are those of two's-complement negation. -/
theorem negateIsTheBitScan : Obligations.NegateIsTheBitScan := by
  refine ⟨fun _ => negateByScan_eq_negate, ?modular, ?zero, ?twice, ?mostNegative,
    fun _ _ => toInteger_negate_of_ne_intMin, rfl, rfl, rfl, rfl, rfl⟩
  case modular =>
    intro n w
    rw [negate_eq_neg, BitVec.toNat_neg]
  case zero =>
    intro n
    rw [negate_eq_neg, BitVec.neg_zero]
  case twice =>
    intro n w
    rw [negate_eq_neg, negate_eq_neg, BitVec.neg_neg]
  case mostNegative =>
    intro n
    rw [negate_eq_neg, BitVec.neg_intMin]

/-- Settles O52. Opcode `01` is `a - b` (`aluOperate_sub_eq_sub`), which gives its value and its corners; the most negative
word is its own negation. -/
theorem aluOperationLaws : Obligations.AluOperationLaws := by
  refine ⟨fun n a b => ⟨aluOperate_sub a b, ?negated, ?modular, ?zero, ?mostNegative, ?equal,
    fun i => getLsbD_norWords a b, aluOperate_nor a b, norWords_self a, norWords_zero a, norWords_allOnes b,
    aluOperate_pass a b⟩, rfl, defaultMcwTable_aluOp_ne_pass⟩
  case negated => rw [aluOperate_sub, aluOperate_add]
  case modular => rw [aluOperate_sub_eq_sub, BitVec.toNat_sub]
  case zero => rw [aluOperate_sub_eq_sub, BitVec.sub_zero]
  case mostNegative => rw [aluOperate_sub, negate_eq_neg, BitVec.neg_intMin]
  case equal => rw [aluOperate_sub_eq_sub, BitVec.sub_self]

/-- Settles O53, by the bits and the signed value of `extend`; at `N = 16` and `m = 8` it is the datapath's instance. -/
theorem signExtensionLaws : Obligations.SignExtensionLaws :=
  ⟨fun _ _ _ _ => ⟨fun _ => getLsbD_extend_of_lt, fun _ => getLsbD_extend_of_le, toInteger_extend⟩,
    fun _ _ _ h => ⟨toNat_extend_of_ge h, Nat.max_eq_right h⟩,
    fun _ => rfl, rfl, rfl, rfl, rfl, rfl⟩

/-- Settles O54, by the two cases of `registerUpdate`; a 16-bit word is stored as it is. -/
theorem registerUpdatePadsOrKeepsTheLeftmostBits : Obligations.RegisterUpdatePadsOrKeepsTheLeftmostBits := by
  refine ⟨fun _ => rfl, fun _ => registerUpdate_same, ?narrower, ?wider, ?machine⟩
  case narrower =>
    intro W m v h
    rw [registerUpdate_of_le v h.le, BitVec.toNat_setWidth_of_le h.le]
  case wider =>
    intro W m v h i hi
    rw [registerUpdate_of_gt v h, BitVec.getLsbD_setWidth, BitVec.getLsbD_ushiftRight, Nat.add_comm]
    simp [hi]
  case machine =>
    intro s r v
    rw [registerUpdate_same]
    exact ⟨State.readReg_writeReg_self s r v, rfl, rfl⟩

end Sys2Proof.Proofs
end

section
/-! The cycle family (42_cycle.md): the fields of step 2 (R102), the halt at fetch (R101), the clock pulse as one function
of the whole cycle (R113). First a word that decodes as the encoding of its instruction, then the datapath over the raw
word, then the whole answer of a pulse in each case; the three obligations come last. -/

namespace Sys2Proof

open Laws Machine

/-! ### The word of a decoded instruction -/

section
variable (w : Word)

theorem opcodeField_append_regAField : (opcodeField w ++ regAField w : BitVec (4 + 4)) = w.extractLsb' 8 8 :=
  BitVec.extractLsb'_append_extractLsb'_eq_extractLsb' rfl

theorem opcodeField_append_regAField_append_imm8Field :
    (opcodeField w ++ regAField w ++ imm8Field w : BitVec (4 + 4 + 8)) = w := by
  rw [opcodeField_append_regAField]
  exact BitVec.extractLsb'_append_extractLsb' (w := 8) (len := 8)

theorem opcodeField_append_regAField_append_regBField_append_funcField :
    (opcodeField w ++ regAField w ++ regBField w ++ funcField w : BitVec (4 + 4 + 4 + 4)) = w := by
  have hHigh : (w.extractLsb' 8 8 ++ regBField w : BitVec (8 + 4)) = w.extractLsb' 4 12 :=
    BitVec.extractLsb'_append_extractLsb'_eq_extractLsb' rfl
  rw [opcodeField_append_regAField, hHigh]
  exact BitVec.extractLsb'_append_extractLsb' (w := 12) (len := 4)

end

section
variable {w : Word} {opcode func : BitVec 4}

theorem opcodeField_eq_of_masked (h : w &&& 0xF000 = (opcode ++ 0#12 : BitVec (4 + 12))) : opcodeField w = opcode :=
  (BitVec.append_left_inj 0#12).mp ((and_0xF000 w).symm.trans h)

/-! A word whose masked bits are a format's fixed bits is that format's word with the operands it holds. -/

theorem jType_eq_of_masked (h : w &&& 0xF000 = (opcode ++ 0#12 : BitVec (4 + 12))) :
    (opcode ++ addrJField w : BitVec (4 + 12)) = w := by
  rw [← opcodeField_eq_of_masked h]
  exact opcodeField_append_addrJField w

theorem iType_eq_of_masked (h : w &&& 0xF000 = (opcode ++ 0#12 : BitVec (4 + 12))) :
    (opcode ++ regAField w ++ imm8Field w : BitVec (4 + 4 + 8)) = w := by
  rw [← opcodeField_eq_of_masked h]
  exact opcodeField_append_regAField_append_imm8Field w

theorem rType_eq_of_masked (h : w &&& 0xF00F = (opcode ++ (0#8 ++ func) : BitVec (4 + (8 + 4)))) :
    (opcode ++ regAField w ++ regBField w ++ func : BitVec (4 + 4 + 4 + 4)) = w := by
  have hw := (and_0xF00F w).symm.trans h
  have hOp : opcodeField w = opcode := by
    have hHigh := congrArg (BitVec.extractLsb' (8 + 4) 4) hw
    rwa [BitVec.extractLsb'_append_eq_left, BitVec.extractLsb'_append_eq_left] at hHigh
  have hFn : funcField w = func := by
    rwa [hOp, BitVec.append_right_inj, BitVec.append_right_inj] at hw
  rw [← hOp, ← hFn]
  exact opcodeField_append_regAField_append_regBField_append_funcField w

/-- Encoding what a row of the Controller's table makes of a word gives the word back: the row's mask keeps the fixed bits
of its format, and the operands are the other bits. -/
theorem encode_instrOf {op : Op} (h : controllerDecode (opcodeField w) (funcField w) = some op) :
    encode (instrOf op w) = w := by
  have hrow := (controllerDecode_eq_some_iff_row w op).mp h
  cases op with
  | add | sub | nor => exact rType_eq_of_masked hrow
  | li | mr | addi | mw | bez => exact iType_eq_of_masked hrow
  | j => exact jType_eq_of_masked hrow

/-- No bit of a legal instruction is a don't-care (R59). -/
theorem encode_eq_of_decode {i : Instr} (h : decode w = .ok i) : encode i = w := by
  obtain ⟨rfl, hd⟩ | ⟨op, hop, hd⟩ | ⟨-, e, he⟩ := decode_cases w
  · obtain rfl := Except.ok.inj (hd.symm.trans h)
    rfl
  · obtain rfl := Except.ok.inj (hd.symm.trans h)
    exact encode_instrOf hop
  · nomatch he.symm.trans h

end

end Sys2Proof

namespace Sys2Proof.Machine

theorem instrFields_eq_fieldsOf_of_decode {w : Word} {i : Instr} (h : decode w = .ok i) :
    instrFields i = fieldsOf w := by
  rw [← fieldsOf_encode, encode_eq_of_decode h]

/-! ### The datapath over the raw word -/

section
variable (ins : Word)

theorem regOfAddr_addrA_fieldsOf : regOfAddr (fieldsOf ins).addrA = ins.extractLsb' 8 4 := regOfAddr_zero_append _

theorem regOfAddr_addrB_fieldsOf : regOfAddr (fieldsOf ins).addrB = ins.extractLsb' 4 4 := regOfAddr_zero_append _

end

theorem State.eq_of_fields_eq {s t : State} (params : s.params = t.params) (regs : s.regs = t.regs) (pc : s.pc = t.pc)
    (mar : s.mar = t.mar) (run : s.run = t.run) (imem : s.imem = t.imem) (dmem : s.dmem = t.dmem) : s = t := by
  cases s
  cases t
  congr

/-- The datapath of steps 3 to 11, over the fields of step 2, is R113's part from the register fetch on: a multiplexer is
R113's `if` with its branches exchanged (D7), and the value read at `mar` is of the memory after the write (R41). -/
theorem State.cycle_fieldsOf_eq_cycleR113 (c : Mcw) (ins : Word) (s : State) :
    State.cycle c (fieldsOf ins) s = cycleR113 c ins s := by
  have hA := regOfAddr_addrA_fieldsOf ins
  have hB := regOfAddr_addrB_fieldsOf ins
  apply State.eq_of_fields_eq
  case params => exact State.cycle_params ..
  case run => exact State.cycle_run ..
  case imem => exact State.cycle_imem ..
  case dmem =>
    rw [State.cycle_dmem, hA]
    rfl
  case mar =>
    rw [State.cycle_mar, hA, hB]
    rfl
  case regs =>
    have hRead (v : Word) : (if c.memWrite then s.memWrite s.mar v else s).memRead s.mar =
        Memory.readAt s.params.dmemCap
          (if c.memWrite then Memory.writeAt s.params.dmemCap s.dmem s.mar v else s.dmem) s.mar := by
      cases c.memWrite <;> rfl
    simp only [State.cycle_regs, hA, hB, hRead]
    rfl
  case pc =>
    have hAddend (v : Word) : pcAddend (branchSelect c v) (fieldsOf ins) =
        if c.branch = true ∧ v = 0x0000 then (ins.extractLsb' 0 8).signExtend 16 else 0x0001 := by
      simp only [pcAddend, mux, branchSelect, Bool.and_eq_true, beq_iff_eq]
      rfl
    rw [State.cycle_pc, hA, hAddend]
    rfl

/-! ### The whole answer of a pulse -/

section
variable {s t : State}

theorem tick_of_step_eq_next (h : step s = .next t) :
    tick s = { state := t, running := t.run == .running, diagnostic := none } := by
  rw [tick, h]

theorem tick_of_not_running (h : s.run ≠ .running) : tick s = { state := s, running := false, diagnostic := none } := by
  rw [tick_of_step_eq_next (step_of_not_running h), beq_eq_false_iff_ne.mpr h]

theorem tick_of_ifetch_zero (hr : s.run = .running) (h : s.ifetch = 0x0000) :
    tick s = { state := s.enterHalted, running := false, diagnostic := none } :=
  tick_of_step_eq_next (step_of_ifetch_zero hr h)

theorem tick_of_decode_error {e : DecodeReject} (hr : s.run = .running) (hd : decode s.ifetch = .error e) :
    tick s = { state := s.enterFaulted, running := false, diagnostic := some (s.pc, s.ifetch) } := by
  rw [tick, step_of_decode_error hr hd]
  rfl

/-- A fetched word with a row is one cycle under its operation's control word, driven by the fields of the word. -/
theorem step_of_controllerDecode {op : Op} (hr : s.run = .running)
    (hop : controllerDecode (opcodeField s.ifetch) (funcField s.ifetch) = some op) :
    step s = .next (State.cycle (controlWord s.params.mcwTable op) (fieldsOf s.ifetch) s) := by
  have hd := decode_of_controllerDecode hop
  rw [step_of_decode_ok hr hd, exec_of_instrOp s (instrOp_instrOf op s.ifetch), instrFields_eq_fieldsOf_of_decode hd]

theorem tick_of_controllerDecode {op : Op} (hr : s.run = .running)
    (hop : controllerDecode (opcodeField s.ifetch) (funcField s.ifetch) = some op) :
    tick s =
      { state := State.cycle (controlWord s.params.mcwTable op) (fieldsOf s.ifetch) s, running := true,
        diagnostic := none } := by
  rw [tick_of_step_eq_next (step_of_controllerDecode hr hop), State.cycle_run, hr]
  rfl

end

end Sys2Proof.Machine

namespace Sys2Proof.Proofs

open Sys2Proof.Machine

/-- Settles O6. The slices are the definition of step 2; a word that decodes is the encoding of its
instruction (`encode_eq_of_decode`), and so has the instruction's fields. -/
theorem fieldsAreThoseOfTheInstructionWord : Obligations.FieldsAreThoseOfTheInstructionWord :=
  ⟨fun _ => ⟨rfl, rfl, rfl, rfl, rfl⟩, fun _ _ => instrFields_eq_fieldsOf_of_decode⟩

/-- Settles O9. The pulse is compared with R113 in the four cases R113 tells apart: a stopped machine, and a fetched word
that is zero, has a row, or has none. -/
theorem tickIsTheCycleFunction : Obligations.TickIsTheCycleFunction := by
  intro s
  by_cases hr : s.run = .running
  case neg => rw [tick_of_not_running hr, tickR113, if_neg hr]
  by_cases h0 : s.ifetch = 0x0000
  case pos =>
    rw [tick_of_ifetch_zero hr h0, tickR113, if_pos hr, if_pos h0]
    rfl
  rw [tickR113, if_pos hr, if_neg h0, ← opcodeField, ← funcField]
  obtain ⟨hz, -⟩ | ⟨op, hop, -⟩ | ⟨hnone, e, he⟩ := decode_cases s.ifetch
  · exact absurd hz h0
  · rw [hop, tick_of_controllerDecode hr hop, State.cycle_fieldsOf_eq_cycleR113]
  · rw [hnone, tick_of_decode_error hr he]
    rfl

/-- Settles O10, by R32's equation at `pc` and the pulse at a zero word. -/
theorem zeroFetchHalts : Obligations.ZeroFetchHalts := by
  intro s
  refine ⟨Memory.readAt_eq_ite_toInt _ _ s.pc, fun hr h => ?_⟩
  rw [tick_of_ifetch_zero hr h]
  exact ⟨step_of_ifetch_zero hr h, rfl, rfl⟩

end Sys2Proof.Proofs
end

section
/-! The arithmetic family (43_arith.md): ADD (R120), SUB (R121), NOR (R122), ADDI (R124). First the assembly line of an
instruction, then the control words that write the ALU result back and what one cycle under them leaves, then what each of
the four instructions answers; the four obligations come last. -/

namespace Sys2Proof

/-! ### The assembly line of an instruction -/

/-- The line of R62 that stands for an instruction: registers and targets as the numbers of their fields, immediates
signed. -/
def Asm.ofInstr (i : Instr) : Asm :=
  match i with
  | .halt => .halt
  | .add ra rb => .add ra.toNat rb.toNat
  | .sub ra rb => .sub ra.toNat rb.toNat
  | .nor ra rb => .nor ra.toNat rb.toNat
  | .li ra imm => .li ra.toNat imm.toInt
  | .mr ra imm => .mr ra.toNat imm.toInt
  | .addi ra imm => .addi ra.toNat imm.toInt
  | .mw ra imm => .mw ra.toNat imm.toInt
  | .bez ra off => .bez ra.toNat off.toInt
  | .j target => .j target.toNat

theorem immOk_toInt (imm : BitVec 8) : immOk imm.toInt :=
  ⟨BitVec.le_toInt imm, Int.le_sub_one_of_lt BitVec.toInt_lt⟩

/-- Every operand a field can hold is one the syntax can write. -/
theorem Asm.wellFormed_ofInstr (i : Instr) : (Asm.ofInstr i).wellFormed = true := by
  cases i with
  | halt => rfl
  | add ra rb | sub ra rb | nor ra rb => exact decide_eq_true ⟨ra.isLt, rb.isLt⟩
  | li ra imm | mr ra imm | addi ra imm | mw ra imm | bez ra imm => exact decide_eq_true ⟨ra.isLt, immOk_toInt imm⟩
  | j target => exact decide_eq_true (Nat.le_of_lt_succ target.isLt)

theorem asmInstr_ofInstr (i : Instr) : asmInstr (Asm.ofInstr i) = some i := by
  rw [asmInstr.eq_def, if_pos (Asm.wellFormed_ofInstr i)]
  cases i <;> simp [Asm.ofInstr]

end Sys2Proof

namespace Sys2Proof.Machine

/-! ### A cycle that writes the ALU result back -/

/-- The control words of R93 that write the ALU result to register A, store nothing, keep `mar` and go
straight on. -/
def aluWriteback (aluSrc : Bool) (aluOp : BitVec 2) : Mcw where
  pcSrc := false
  branch := false
  memWrite := false
  aluSrc := aluSrc
  aluOp := aluOp
  marWrite := false
  regWrite := true
  regDst := true

section
variable {op : Op} {aluSrc : Bool} {aluOp : BitVec 2} {s : State}

/-- Under such a word the cycle is one register write and `pc + 1`. -/
theorem State.cycle_aluWriteback (f : Fields) (s : State) :
    State.cycle (aluWriteback aluSrc aluOp) f s =
      (s.writeReg (regOfAddr f.addrA)
        (aluOperate aluOp (s.readReg (regOfAddr f.addrA))
          (mux aluSrc (s.readReg (regOfAddr f.addrB)) f.immediate16))).setPc (s.pc + 1) := rfl

theorem execCycle_of_aluWriteback (f : Fields) (hs : s.UsesDefaultTable)
    (hc : controlWord defaultMcwTable op = aluWriteback aluSrc aluOp) :
    execCycle op f s =
      .next ((s.writeReg (regOfAddr f.addrA)
        (aluOperate aluOp (s.readReg (regOfAddr f.addrA))
          (mux aluSrc (s.readReg (regOfAddr f.addrB)) f.immediate16))).setPc (s.pc + 1)) := by
  rw [execCycle, hs, hc, State.cycle_aluWriteback]

/-- R-type: the second operand is `x[B]`. -/
theorem execCycle_rType_of_aluWriteback (func : BitVec 4) (ra rb : RegIdx) (hs : s.UsesDefaultTable)
    (hc : controlWord defaultMcwTable op = aluWriteback false aluOp) :
    execCycle op (rTypeFields func ra rb) s =
      .next ((s.writeReg ra (aluOperate aluOp (s.readReg ra) (s.readReg rb))).setPc (s.pc + 1)) := by
  rw [execCycle_of_aluWriteback _ hs hc]
  simp [rTypeFields, mux]

/-- I-type: the second operand is the sign-extended immediate. -/
theorem execCycle_iType_of_aluWriteback (opcode : BitVec 4) (ra : RegIdx) (imm : BitVec 8) (hs : s.UsesDefaultTable)
    (hc : controlWord defaultMcwTable op = aluWriteback true aluOp) :
    execCycle op (iTypeFields opcode ra imm) s =
      .next ((s.writeReg ra (aluOperate aluOp (s.readReg ra) (imm.signExtend 16))).setPc (s.pc + 1)) := by
  rw [execCycle_of_aluWriteback _ hs hc]
  simp [iTypeFields, mux, extend16]

end

/-! ### What each instruction answers -/

section
variable {s : State} (ra rb : RegIdx) (imm : BitVec 8)

theorem exec_add (hs : s.UsesDefaultTable) :
    exec (.add ra rb) s = .next ((s.writeReg ra (s.readReg ra + s.readReg rb)).setPc (s.pc + 1)) :=
  execCycle_rType_of_aluWriteback (aluOp := 0b00#2) _ ra rb hs rfl

theorem exec_sub (hs : s.UsesDefaultTable) :
    exec (.sub ra rb) s = .next ((s.writeReg ra (s.readReg ra - s.readReg rb)).setPc (s.pc + 1)) := by
  rw [← aluOperate_sub_eq_sub]
  exact execCycle_rType_of_aluWriteback _ ra rb hs rfl

theorem exec_nor (hs : s.UsesDefaultTable) :
    exec (.nor ra rb) s = .next ((s.writeReg ra (~~~(s.readReg ra ||| s.readReg rb))).setPc (s.pc + 1)) :=
  execCycle_rType_of_aluWriteback (aluOp := 0b10#2) _ ra rb hs rfl

theorem exec_addi (hs : s.UsesDefaultTable) :
    exec (.addi ra imm) s = .next ((s.writeReg ra (s.readReg ra + imm.signExtend 16)).setPc (s.pc + 1)) :=
  execCycle_iType_of_aluWriteback (aluOp := 0b00#2) _ ra imm hs rfl

end

end Sys2Proof.Machine

namespace Sys2Proof.Proofs

open Sys2Proof.Machine

/-- Settles O16. The line assembles by `asmInstr_ofInstr`; the next state is `exec_add`'s register write and `pc + 1`. -/
theorem addAddsRegisters : Obligations.AddAddsRegisters :=
  fun ra rb => ⟨asmInstr_ofInstr (.add ra rb), rfl, rfl, fun _ => exec_add ra rb⟩

/-- Settles O17, as O16: the ALU's addition of the negation is the difference (`exec_sub`). -/
theorem subSubtractsRegisters : Obligations.SubSubtractsRegisters :=
  fun ra rb => ⟨asmInstr_ofInstr (.sub ra rb), rfl, rfl, fun _ => exec_sub ra rb⟩

/-- Settles O18, as O16, by `exec_nor`. -/
theorem norNorsRegisters : Obligations.NorNorsRegisters :=
  fun ra rb => ⟨asmInstr_ofInstr (.nor ra rb), rfl, rfl, fun _ => exec_nor ra rb⟩

/-- Settles O20, as O16, by `exec_addi`; the immediate is written signed and added sign-extended. -/
theorem addiAddsTheImmediate : Obligations.AddiAddsTheImmediate :=
  fun ra imm => ⟨asmInstr_ofInstr (.addi ra imm), rfl, rfl, fun _ => exec_addi ra imm⟩

end Sys2Proof.Proofs
end

section
/-! The control family (45_control.md): BEZ (R135), J (R136), HALT (R137). First the page of an address, then a cycle that
writes nothing but `pc` and what the two transfers answer, then the step at a `pc` out of range; the three obligations
come last. -/

namespace Sys2Proof

open Machine

/-! ### The page of an address -/

/-- An address of a memory of at most 4096 words lies in page 0. -/
theorem page_eq_zero_of_inRange {cap : Nat} {a : Word} (hcap : cap ≤ 4096) (ha : inRange cap a = true) :
    a.extractLsb' 12 4 = 0#4 := by
  have hlt : a.toNat < 2 ^ 12 := by
    obtain ⟨-, h⟩ := inRange_iff_toInt.mp ha
    have hmsb : a.msb = false :=
      Bool.eq_false_iff.mpr fun hneg => nomatch ha.symm.trans (inRange_eq_false_of_msb cap hneg)
    rw [BitVec.toInt_eq_toNat_of_msb hmsb] at h
    omega
  apply BitVec.eq_of_toNat_eq
  rw [BitVec.extractLsb'_toNat, Nat.shiftRight_eq_div_pow, Nat.div_eq_of_lt hlt]
  rfl

end Sys2Proof

namespace Sys2Proof.Machine

/-! ### A cycle that writes nothing but `pc` -/

theorem State.cycle_eq_setPc {c : Mcw} (f : Fields) (s : State) (hMem : c.memWrite = false)
    (hReg : c.regWrite = false) (hMar : c.marWrite = false) :
    State.cycle c f s = s.setPc (State.cycle c f s).pc := by
  simp [State.cycle, hMem, hReg, hMar]

section
variable {s : State}

/-- An instruction whose default control word writes nothing but `pc` answers R14's next `pc` and no other change. -/
theorem exec_eq_next_setPc {i : Instr} {op : Op} (hi : instrOp i = some op) (hs : s.UsesDefaultTable)
    (hMem : (controlWord defaultMcwTable op).memWrite = false)
    (hReg : (controlWord defaultMcwTable op).regWrite = false)
    (hMar : (controlWord defaultMcwTable op).marWrite = false) :
    exec i s = .next (s.setPc (nextPcR14 i s)) := by
  obtain ⟨t, ht, hpc⟩ := exec_pc i hs
  have hcycle := exec_of_instrOp s hi
  rw [hs] at hcycle
  obtain rfl := Host.Outcome.next.inj (ht.symm.trans hcycle)
  rw [ht, ← hpc, ← State.cycle_eq_setPc _ s hMem hReg hMar]

/-! Of R93's control words, those of BEZ and J have no write bit set (D6). -/

theorem exec_bez (ra : RegIdx) (off : BitVec 8) (hs : s.UsesDefaultTable) :
    exec (.bez ra off) s = .next (s.setPc (nextPcR14 (.bez ra off) s)) :=
  exec_eq_next_setPc rfl hs rfl rfl rfl

theorem exec_j (target : BitVec 12) (hs : s.UsesDefaultTable) :
    exec (.j target) s = .next (s.setPc (nextPcR14 (.j target) s)) :=
  exec_eq_next_setPc rfl hs rfl rfl rfl

/-! ### The step at a `pc` out of range -/

theorem step_of_pc_not_inRange (hr : s.run = .running) (h : inRange s.params.imemCap s.pc = false) :
    step s = .next s.enterHalted :=
  step_of_ifetch_zero hr (State.ifetch_of_not_inRange h)

end

end Sys2Proof.Machine

namespace Sys2Proof.Proofs

open Sys2Proof.Machine

/-- Settles O23. The next state is `exec_bez`'s `pc`; it is RUNNING where the branch was, so the step at a target out of
range is the halt. -/
theorem bezBranchesOnZero : Obligations.BezBranchesOnZero := by
  refine fun ra off => ⟨asmInstr_ofInstr (.bez ra off), rfl, rfl, fun s hs => ⟨exec_bez ra off hs, ?outOfRange⟩⟩
  case outOfRange =>
    intro t ht hr hpc
    obtain rfl := Host.Outcome.next.inj ((exec_bez ra off hs).symm.trans ht)
    exact step_of_pc_not_inRange hr hpc

/-- Settles O24. The next state is `exec_j`'s `pc`, whose high four bits are the page of the jump; that page is 0 in a
memory of at most 4096 words. -/
theorem jumpStaysInItsPage : Obligations.JumpStaysInItsPage := by
  refine fun target => ⟨asmInstr_ofInstr (.j target), rfl, rfl, fun s hs => ⟨exec_j target hs, ?next⟩⟩
  case next =>
    intro t ht
    obtain rfl := Host.Outcome.next.inj ((exec_j target hs).symm.trans ht)
    refine ⟨BitVec.extractLsb'_append_eq_left, ?absolute, fun hr hpc => step_of_pc_not_inRange hr hpc⟩
    case absolute =>
      intro hcap hpc
      rw [State.setPc_pc, nextPcR14, page_eq_zero_of_inRange hcap hpc]
      exact (BitVec.setWidth_eq_append (by decide)).symm

/-- Settles O25. A `pc` out of range fetches the zero word, the one word that decodes to HALT, so both stops are the
pulse at a zero word; in HALTED the clock changes nothing. -/
theorem haltStopsUntilReset : Obligations.HaltStopsUntilReset := by
  refine ⟨rfl, rfl, rfl, rfl, fun _ => decode_eq_ok_halt_iff, fun _ => rfl, ?stops, ?halted⟩
  case stops =>
    rintro s hr (hzero | hpc)
    · exact tick_of_ifetch_zero hr hzero
    · exact tick_of_ifetch_zero hr (State.ifetch_of_not_inRange hpc)
  case halted =>
    intro s hr
    exact ⟨hostAct_clk_of_not_running (by rw [hr]; decide), hr, rfl⟩

end Sys2Proof.Proofs
end

section
/-! The exceptions family (60_exceptions.md): the terminating conditions in the order of R144. First the pulse that fetches a
nonzero word without a row, then the obligation. -/

namespace Sys2Proof.Machine

section
variable {s : State}

/-- A nonzero fetched word without a row raises the one fault, which carries `pc` and the word (R140). -/
theorem step_of_controllerDecode_eq_none (hr : s.run = .running) (h0 : s.ifetch ≠ 0x0000)
    (hnone : controllerDecode (opcodeField s.ifetch) (funcField s.ifetch) = none) :
    step s = .fault (.illegalInstruction s.pc s.ifetch) := by
  obtain ⟨e, he⟩ : ∃ e, decode s.ifetch = .error e :=
    exists_decode_eq_error_iff.mpr ⟨h0, fun op hop => nomatch hnone.symm.trans hop⟩
  exact step_of_decode_error hr he

/-- A fetched word with a row leaves the machine RUNNING, whatever the control word of the row (R144). -/
theorem exists_step_eq_next_running {op : Op} (hr : s.run = .running)
    (hop : controllerDecode (opcodeField s.ifetch) (funcField s.ifetch) = some op) :
    ∃ t, step s = .next t ∧ t.run = .running :=
  ⟨_, step_of_controllerDecode hr hop, (State.cycle_run _ _ s).trans hr⟩

end

end Sys2Proof.Machine

namespace Sys2Proof.Proofs

open Sys2Proof.Machine

/-- Settles O13. Each condition is the lemma on what the step answers in its case; past them a step is a cycle of the
datapath, which writes no `run` and raises nothing. -/
theorem terminatingConditionsInOrder : Obligations.TerminatingConditionsInOrder := by
  refine ⟨?stopped, ?zeroFetch, ?pcOutOfRange, ?noRow, ?row, ?zeroPairHasNoRow, ?execAnswers⟩
  case stopped => exact fun _ => step_of_not_running
  case zeroFetch => exact fun _ => step_of_ifetch_zero
  case pcOutOfRange => exact fun _ => step_of_pc_not_inRange
  case noRow => exact fun _ => step_of_controllerDecode_eq_none
  case row => exact fun _ _ hr _ hop => exists_step_eq_next_running hr hop
  case zeroPairHasNoRow => rfl
  case execAnswers => exact exists_exec_eq_next

end Sys2Proof.Proofs
end

section
/-! The round trip of the encoding (30_encoding.md section 3) and the rejected words (section 4). First the operand
fields of an encoded instruction, then the two reasons of a rejection; the four obligations come last. -/

namespace Sys2Proof

open Laws Machine

/-! ### The operands of an encoded instruction -/

theorem regAField_encode (i : Instr) : regAField (encode i) = regOfAddr (instrFields i).addrA :=
  (regOfAddr_addrA_instrFields i).symm

theorem regBField_encode (i : Instr) : regBField (encode i) = regOfAddr (instrFields i).addrB :=
  (regOfAddr_addrB_instrFields i).symm

theorem addrJField_encode (i : Instr) : addrJField (encode i) = (instrFields i).addrJ :=
  congrArg Fields.addrJ (fieldsOf_encode i)

/-- The immediate is the low byte of the twelve operand bits. -/
theorem imm8Field_encode (i : Instr) : imm8Field (encode i) = (instrFields i).addrJ.extractLsb' 0 8 := by
  rw [← addrJField_encode]
  exact (BitVec.extractLsb'_extractLsb'_of_le (by decide)).symm

theorem encode_masked (i : Instr) : encode i &&& rowMask i = rowMatch i := by
  cases i with
  | halt => exact EncodesRow.halt
  | add ra rb => exact EncodesRow.add ra rb
  | sub ra rb => exact EncodesRow.sub ra rb
  | nor ra rb => exact EncodesRow.nor ra rb
  | li ra imm => exact EncodesRow.li ra imm
  | mr ra imm => exact EncodesRow.mr ra imm
  | addi ra imm => exact EncodesRow.addi ra imm
  | mw ra imm => exact EncodesRow.mw ra imm
  | bez ra off => exact EncodesRow.bez ra off
  | j target => exact EncodesRow.j target

/-- The row of an instruction makes the instruction of its own word again, operand by operand. -/
theorem instrOf_encode {i : Instr} {op : Op} (h : instrOp i = some op) : instrOf op (encode i) = i := by
  cases i with
  | halt => nomatch h
  | add ra rb | sub ra rb | nor ra rb =>
    obtain rfl := Option.some.inj h
    simp [instrOf, regAField_encode, regBField_encode, instrFields, rTypeFields]
  | li ra imm | mr ra imm | addi ra imm | mw ra imm | bez ra imm =>
    obtain rfl := Option.some.inj h
    have hImm : (ra ++ imm).extractLsb' 0 8 = imm := BitVec.extractLsb'_append_eq_right
    simp [instrOf, regAField_encode, imm8Field_encode, instrFields, iTypeFields, hImm]
  | j target =>
    obtain rfl := Option.some.inj h
    exact congrArg Instr.j (addrJField_encode (.j target))

theorem eq_halt_of_instrOp_eq_none {i : Instr} (h : instrOp i = none) : i = .halt := by
  cases i with
  | halt => rfl
  | _ => nomatch h

theorem decode_encode (i : Instr) : decode (encode i) = .ok i := by
  cases hi : instrOp i with
  | some op => exact (decode_eq_ok_iff_row hi).mpr ⟨encode_masked i, instrOf_encode hi⟩
  | none =>
    obtain rfl := eq_halt_of_instrOp_eq_none hi
    rfl

/-! ### The two reasons of a rejection -/

section
variable {w : Word}

/-- A word without a row that is not the halt word is rejected with its function under opcode `0000`, and with its
opcode otherwise (R60). -/
theorem decode_of_controllerDecode_eq_none (h0 : w ≠ 0x0000)
    (hnone : controllerDecode (opcodeField w) (funcField w) = none) :
    decode w =
      .error (if opcodeField w = 0b0000 then .illegalFunction (funcField w) else .illegalOpcode (opcodeField w)) := by
  simp only [decode, if_neg h0, hnone]
  split <;> rfl

theorem decode_eq_error_iff {e : DecodeReject} :
    decode w = .error e ↔
      w ≠ 0x0000 ∧ controllerDecode (opcodeField w) (funcField w) = none ∧
        e = if opcodeField w = 0b0000 then .illegalFunction (funcField w) else .illegalOpcode (opcodeField w) := by
  constructor
  · intro h
    obtain ⟨h0, hop⟩ := exists_decode_eq_error_iff.mp ⟨e, h⟩
    have hnone := Option.eq_none_iff_forall_ne_some.mpr hop
    exact ⟨h0, hnone, Except.error.inj (h.symm.trans (decode_of_controllerDecode_eq_none h0 hnone))⟩
  · rintro ⟨h0, hnone, rfl⟩
    exact decode_of_controllerDecode_eq_none h0 hnone

theorem decode_eq_illegalOpcode_iff {opcode : BitVec 4} :
    decode w = .error (.illegalOpcode opcode) ↔
      (controllerDecode (opcodeField w) (funcField w) = none ∧ opcodeField w ≠ 0b0000) ∧ opcode = opcodeField w := by
  rw [decode_eq_error_iff]
  by_cases hz : opcodeField w = 0b0000
  · rw [if_pos hz]
    exact ⟨fun ⟨_, _, h⟩ => (nomatch h), fun ⟨⟨_, h⟩, _⟩ => absurd hz h⟩
  · rw [if_neg hz, DecodeReject.illegalOpcode.injEq]
    exact ⟨fun ⟨_, hnone, h⟩ => ⟨⟨hnone, hz⟩, h⟩, fun ⟨⟨hnone, _⟩, h⟩ => ⟨fun h0 => hz (h0 ▸ rfl), hnone, h⟩⟩

theorem decode_eq_illegalFunction_iff {func : BitVec 4} :
    decode w = .error (.illegalFunction func) ↔
      (controllerDecode (opcodeField w) (funcField w) = none ∧ opcodeField w = 0b0000) ∧ w ≠ 0x0000 ∧
        func = funcField w := by
  rw [decode_eq_error_iff]
  by_cases hz : opcodeField w = 0b0000
  · rw [if_pos hz, DecodeReject.illegalFunction.injEq]
    exact ⟨fun ⟨h0, hnone, h⟩ => ⟨⟨hnone, hz⟩, h0, h⟩, fun ⟨⟨hnone, _⟩, h0, h⟩ => ⟨h0, hnone, h⟩⟩
  · rw [if_neg hz]
    exact ⟨fun ⟨_, _, h⟩ => (nomatch h), fun ⟨⟨_, h⟩, _⟩ => absurd h hz⟩

end

/-- The nine opcodes without a row (R60). -/
theorem controllerDecode_eq_none_and_opcode_ne_zero_iff (opcode func : BitVec 4) :
    controllerDecode opcode func = none ∧ opcode ≠ 0b0000 ↔ opcode.toNat ∈ [3, 5, 9, 10, 11, 12, 13, 14, 15] := by
  revert opcode func
  decide

/-- The functions without a row under opcode `0000` (R60). -/
theorem controllerDecode_eq_none_and_opcode_eq_zero_iff (opcode func : BitVec 4) :
    controllerDecode opcode func = none ∧ opcode = 0b0000 ↔ opcode.toNat = 0 ∧ func.toNat ∉ [8, 1, 2] := by
  revert opcode func
  decide

end Sys2Proof

namespace Sys2Proof.Proofs

open Sys2Proof.Machine

/-- Settles O1: the word of an instruction has the fixed bits of its row, and its fields are the operands. -/
theorem decodeOfEncodeIsTheInstruction : Obligations.DecodeOfEncodeIsTheInstruction := decode_encode

/-- Settles O2, by `encode_eq_of_decode`: the row's mask keeps the fixed bits and the operands are all the others. -/
theorem encodeOfDecodeIsTheWord : Obligations.EncodeOfDecodeIsTheWord := fun _ _ => encode_eq_of_decode

/-- Settles O5. A rejection names the reason of `decode_eq_illegalOpcode_iff` or `decode_eq_illegalFunction_iff`; which
fields have no row is read off the Controller's table. -/
theorem illegalWordsAreThoseTheSpecLists : Obligations.IllegalWordsAreThoseTheSpecLists := by
  intro w
  refine ⟨?opcode, ?function, fun op h => (decode_eq_illegalOpcode_iff.mp h).2,
    fun fn h => (decode_eq_illegalFunction_iff.mp h).2.2⟩
  case opcode =>
    simp only [decode_eq_illegalOpcode_iff, exists_and_left, exists_eq, and_true]
    exact controllerDecode_eq_none_and_opcode_ne_zero_iff (opcodeField w) (funcField w)
  case function =>
    simp only [decode_eq_illegalFunction_iff, exists_and_left, exists_eq, and_true,
      controllerDecode_eq_none_and_opcode_eq_zero_iff, and_assoc]
    rfl

/-- Settles O4: the words are those of R59's patterns with the operands written in. -/
theorem specWordsDecodeAsTheSpecSays : Obligations.SpecWordsDecodeAsTheSpecSays :=
  ⟨decode_encode .halt, decode_encode (.add 3 1), decode_encode (.sub 0 1), decode_encode (.nor 3 2),
    decode_encode (.li 0 5), decode_encode (.mr 3 5), decode_encode (.addi 3 0xFF), decode_encode (.mw 2 3),
    decode_encode (.bez 1 0xFE), decode_encode (.j 0xABC), rfl, rfl⟩

end Sys2Proof.Proofs
end

section
/-! The machine's invariant and its parameters (00_scope.md section 4, 20_memory.md section 10), and the ports of a
clock pulse (70_reset_and_hazards.md section 5). First what a step can answer, then that a cycle keeps the invariant,
then the stopped machine under the clock; the obligations come last. -/

namespace Sys2Proof.Machine

/-! ### What a step can answer -/

/-- A step answers a next state, or the machine is RUNNING and the fetched word is rejected. -/
theorem step_cases (s : State) :
    (∃ t, step s = .next t) ∨ (s.run = .running ∧ ∃ e, decode s.ifetch = .error e) := by
  by_cases hr : s.run = .running
  case neg => exact .inl ⟨s, step_of_not_running hr⟩
  cases hd : decode s.ifetch with
  | error e => exact .inr ⟨hr, e, rfl⟩
  | ok i =>
    obtain ⟨t, ht⟩ := exists_exec_eq_next i s
    exact .inl ⟨t, (step_of_decode_ok hr hd).trans ht⟩

/-- What a next state of a step can be: the same state of a stopped machine, or what one instruction answers. -/
theorem step_next_cases {s t : State} (h : step s = .next t) : t = s ∨ ∃ i, exec i s = .next t := by
  by_cases hr : s.run = .running
  case neg => exact .inl (Host.Outcome.next.inj (h.symm.trans (step_of_not_running hr)))
  cases hd : decode s.ifetch with
  | error e => nomatch h.symm.trans (step_of_decode_error hr hd)
  | ok i => exact .inr ⟨i, (step_of_decode_ok hr hd).symm.trans h⟩

theorem step_params {s t : State} (h : step s = .next t) : t.params = s.params := by
  obtain rfl | ⟨i, hexec⟩ := step_next_cases h
  · rfl
  · exact exec_params hexec

/-! ### What keeps the invariant -/

/-- A state with the parameters and instruction memory of one that meets the invariant meets it too if its data memory
is canonical. -/
theorem State.Inv.of_dmem_wf {s t : State} (hs : s.Inv) (hparams : t.params = s.params) (himem : t.imem = s.imem)
    (hdmem : Memory.wf s.params.dmemCap t.dmem) : t.Inv := by
  obtain ⟨hp, -, hi⟩ := hs
  exact ⟨hparams ▸ hp, hparams ▸ hdmem, by rw [himem, hparams, hi]⟩

theorem State.Inv.cycle {s : State} (hs : s.Inv) (c : Mcw) (f : Fields) : (State.cycle c f s).Inv := by
  have ⟨_, hd, _⟩ := hs
  refine hs.of_dmem_wf (State.cycle_params c f s) (State.cycle_imem c f s) ?_
  rw [State.cycle_dmem]
  split
  · exact Memory.writeAt_wf _ _ hd
  · exact hd

theorem State.Inv.exec {i : Instr} {s t : State} (hs : s.Inv) (h : exec i s = .next t) : t.Inv := by
  obtain rfl | ⟨c, f, rfl⟩ := exec_next_cases h
  · exact hs
  · exact hs.cycle c f

theorem State.Inv.step {s t : State} (hs : s.Inv) (h : step s = .next t) : t.Inv := by
  obtain rfl | ⟨i, hexec⟩ := step_next_cases h
  · exact hs
  · exact hs.exec hexec

theorem State.Inv.tick {s : State} (hs : s.Inv) : (tick s).state.Inv := by
  obtain h | h | ⟨i, h⟩ := tick_state_cases s
  · exact h.symm ▸ hs
  · exact h.symm ▸ hs
  · exact hs.exec h

theorem State.Inv.hostAct {s : State} (hs : s.Inv) (i : HostInput) : (hostAct i s).Inv := by
  have ⟨hp, hd, _⟩ := hs
  cases i with
  | clk => exact hs.tick
  | reset => exact ⟨hp, hd, rfl⟩
  | clearData => exact hs.of_dmem_wf rfl rfl ⟨.nil, nofun⟩

/-- Power-on loads both memories with their images, which are canonical. -/
theorem State.powerOn_inv {p : Params} (hp : p.wf) : (State.powerOn p).Inv := by
  have ⟨_, _, _, hdmem⟩ := hp
  exact ⟨hp, hdmem, rfl⟩

theorem State.powerOn_readReg (p : Params) (r : RegIdx) : (State.powerOn p).readReg r = 0x0000 := by
  simp [State.readReg, State.powerOn]

theorem referenceParams_wf : referenceParams.wf := by decide

/-! ### The clock and the ports -/

section
variable {s : State}

theorem hostActs_clk_of_not_running (h : s.run ≠ .running) (n : Nat) :
    hostActs (List.replicate n HostInput.clk) s = s := by
  induction n with
  | zero => rfl
  | succ n ih => rw [List.replicate_succ, hostActs, hostAct_clk_of_not_running h, ih]

/-- A nonzero fetched word without a row leaves the state FAULTED, with the pair as the diagnostic (R140, R141). -/
theorem tick_of_controllerDecode_eq_none (hr : s.run = .running) (h0 : s.ifetch ≠ 0x0000)
    (hnone : controllerDecode (opcodeField s.ifetch) (funcField s.ifetch) = none) :
    tick s = { state := s.enterFaulted, running := false, diagnostic := some (s.pc, s.ifetch) } :=
  tick_of_decode_error hr (decode_of_controllerDecode_eq_none h0 hnone)

/-- The ports of a decode failure's state: `pc` still addresses the offending word (R140). -/
theorem State.faultDiagnostic_enterFaulted (s : State) : s.enterFaulted.faultDiagnostic = some (s.pc, s.ifetch) := rfl

theorem tick_running_eq_runningPort (s : State) : (tick s).running = (tick s).state.runningPort := by
  obtain ⟨t, ht⟩ | ⟨hr, e, he⟩ := step_cases s
  · rw [tick_of_step_eq_next ht, State.runningPort]
  · rw [tick_of_decode_error hr he]
    rfl

/-- A diagnostic is raised by a decode failure only. -/
theorem tick_eq_of_diagnostic {d : Word × Word} (h : (tick s).diagnostic = some d) :
    (tick s).state = s.enterFaulted ∧ d = (s.pc, s.ifetch) := by
  obtain ⟨t, ht⟩ | ⟨hr, e, he⟩ := step_cases s
  · rw [tick_of_step_eq_next ht] at h
    nomatch h
  · rw [tick_of_decode_error hr he] at h ⊢
    exact ⟨rfl, (Option.some.inj h).symm⟩

end

end Sys2Proof.Machine

namespace Sys2Proof.Proofs

open Sys2Proof.Machine

/-- Settles O46: of a cycle's writes only the store reaches what the invariant speaks of, and it keeps data memory
canonical (`Memory.writeAt_wf`). -/
theorem stepKeepsTheInvariant : Obligations.StepKeepsTheInvariant := fun _ _ hs => hs.step

/-- Settles O47, by `State.Inv.hostAct` at every input of the sequence. -/
theorem hostInputsKeepTheInvariant : Obligations.HostInputsKeepTheInvariant :=
  ⟨fun i _ hs => hs.hostAct i,
    fun _ is hp => hostActs_induction (fun i _ hs => hs.hostAct i) is (State.powerOn_inv hp)⟩

/-- Settles O36, by what every step and every host input keeps. -/
theorem parametersNeverChange : Obligations.ParametersNeverChange := ⟨fun _ _ => step_params, hostActs_params⟩

/-- Settles O14. A diagnostic comes with the FAULTED state of a decode failure, which the clock no longer changes. -/
theorem portsAgreeWithTheTick : Obligations.PortsAgreeWithTheTick := by
  refine fun s => ⟨tick_running_eq_runningPort s, fun d hd n => ?_⟩
  obtain ⟨hstate, rfl⟩ := tick_eq_of_diagnostic hd
  rw [hstate, hostActs_clk_of_not_running (by rw [State.enterFaulted_run]; decide)]
  exact ⟨s.faultDiagnostic_enterFaulted, rfl⟩

/-- Settles O8, by `step_of_decode_ok`. -/
theorem stepRunsTheDecodedInstruction : Obligations.StepRunsTheDecodedInstruction := fun _ _ => step_of_decode_ok

/-- Settles O11, by the step and the pulse of a stopped machine. -/
theorem stoppedMachineIgnoresTheClock : Obligations.StoppedMachineIgnoresTheClock := by
  intro s h
  rw [tick_of_not_running h]
  exact ⟨step_of_not_running h, rfl, hostActs_clk_of_not_running h⟩

/-- Settles O12, by the step and the pulse at a nonzero word without a row. -/
theorem decodeFailureFaultsAndChangesOnlyRun : Obligations.DecodeFailureFaultsAndChangesOnlyRun := by
  intro s hr h0 hnone
  rw [tick_of_controllerDecode_eq_none hr h0 hnone]
  exact ⟨step_of_controllerDecode_eq_none hr h0 hnone, rfl, rfl, rfl, s.faultDiagnostic_enterFaulted⟩

/-- Settles O44: registers, `pc` and `mar` are zero as power-on sets them, and the images are canonical. -/
theorem powerOnState : Obligations.PowerOnState :=
  fun p => ⟨State.powerOn_readReg p, rfl, rfl, rfl, rfl, rfl, State.powerOn_inv⟩

/-- Settles O45: the reset state is the power-on state under the reference parameters. -/
theorem resetStateMeetsTheInvariant : Obligations.ResetStateMeetsTheInvariant :=
  ⟨State.powerOn_inv referenceParams_wf, rfl⟩

end Sys2Proof.Proofs
end

section
/-! The instructions under the default control words (43_arith.md, 44_memory_ops.md, 45_control.md): what LI, MR and MW
answer and the frames of all ten. First the words a store leaves, then the three instructions; the
obligations come last. -/

namespace Sys2Proof

/-! ### The words a store leaves -/

section
variable {cap : Nat} {m : Memory} {a : Word}

/-- R33 in the words of the rule, as `Memory.readAt_eq_ite_toInt` is R32. -/
theorem Memory.writeAt_eq_ite_toInt (cap : Nat) (m : Memory) (a v : Word) :
    m.writeAt cap a v = if 0 ≤ a.toInt ∧ a.toInt < (cap : Int) then m.write a.toInt.toNat v else m := by
  simp only [Memory.writeAt, inRange_iff_toInt, cellIndex_eq_toNat_toInt]

theorem Memory.read_writeAt_cellIndex (v : Word) (h : inRange cap a = true) :
    (m.writeAt cap a v).read (cellIndex a) = v := by
  rw [Memory.writeAt_of_inRange v h, Memory.read_write_self]

/-- Every word but the one an address in range names is as before. -/
theorem Memory.read_writeAt_of_not_named {k : Nat} (v : Word) (h : ¬(inRange cap a = true ∧ k = cellIndex a)) :
    (m.writeAt cap a v).read k = m.read k := by
  cases ha : inRange cap a with
  | true => exact Memory.read_writeAt_of_ne v fun hk => h ⟨ha, hk⟩
  | false => rw [Memory.writeAt_of_not_inRange v ha]

end

end Sys2Proof

namespace Sys2Proof.Machine

/-! ### What LI, MR and MW answer -/

section
variable {s : State} (ra : RegIdx) (imm : BitVec 8)

theorem exec_li (hs : s.UsesDefaultTable) :
    exec (.li ra imm) s = .next ((s.writeReg ra (s.readReg ra + imm.signExtend 16)).setPc (s.pc + 1)) :=
  execCycle_iType_of_aluWriteback (aluOp := 0b00#2) _ ra imm hs rfl

/-- The cycle under R93's control word of MR. -/
theorem State.cycle_mr (f : Fields) (s : State) :
    State.cycle defaultMcwTable.mr f s =
      ((s.writeReg (regOfAddr f.addrA) (s.memRead s.mar)).setMar
        (s.readReg (regOfAddr f.addrA) + f.immediate16)).setPc (s.pc + 1) := rfl

/-- The cycle under R93's control word of MW. -/
theorem State.cycle_mw (f : Fields) (s : State) :
    State.cycle defaultMcwTable.mw f s =
      ((s.memWrite s.mar (s.readReg (regOfAddr f.addrA))).setMar
        (s.readReg (regOfAddr f.addrA) + f.immediate16)).setPc (s.pc + 1) := rfl

/-- R130: the read is at the old `mar`, and `mar` is loaded from the old register. -/
theorem exec_mr (hs : s.UsesDefaultTable) :
    exec (.mr ra imm) s =
      .next (((s.writeReg ra (s.memRead s.mar)).setMar (s.readReg ra + imm.signExtend 16)).setPc (s.pc + 1)) := by
  rw [exec_of_instrOp s rfl, hs, controlWord, State.cycle_mr]
  simp [instrFields, iTypeFields, extend16]

/-- R131: the store is at the old `mar`. -/
theorem exec_mw (hs : s.UsesDefaultTable) :
    exec (.mw ra imm) s =
      .next (((s.memWrite s.mar (s.readReg ra)).setMar (s.readReg ra + imm.signExtend 16)).setPc (s.pc + 1)) := by
  rw [exec_of_instrOp s rfl, hs, controlWord, State.cycle_mw]
  simp [instrFields, iTypeFields, extend16]

end

end Sys2Proof.Machine

namespace Sys2Proof.Proofs

open Sys2Proof.Machine

/-- Settles O21. The next state is `exec_mr`'s; the word read at the old `mar` is R32's. -/
theorem mrReadsAtOldMarAndLoadsMar : Obligations.MrReadsAtOldMarAndLoadsMar := by
  refine fun ra imm => ⟨asmInstr_ofInstr (.mr ra imm), rfl, rfl, fun s hs => ?next⟩
  case next =>
    rw [exec_mr ra imm hs, State.memRead, Memory.readAt_eq_ite_toInt]
    rfl

/-- Settles O22. The next state is `exec_mw`'s; the data memory the store at the old `mar` leaves is R33's. -/
theorem mwStoresAtOldMarAndLoadsMar : Obligations.MwStoresAtOldMarAndLoadsMar := by
  refine fun ra imm => ⟨asmInstr_ofInstr (.mw ra imm), rfl, rfl, fun s hs => ?next⟩
  case next =>
    rw [exec_mw ra imm hs, State.memWrite, Memory.writeAt_eq_ite_toInt]
    rfl

/-- Settles O26: each of the five writes its result to register A and goes straight on. -/
theorem arithmeticFrame : Obligations.ArithmeticFrame := by
  intro s ra rb imm hs p hp
  have hexec : exec p.1 s = .next ((s.writeReg ra p.2).setPc (s.pc + 1)) := by
    simp only [List.mem_cons, List.not_mem_nil, or_false] at hp
    obtain rfl | rfl | rfl | rfl | rfl := hp
    · exact exec_add ra rb hs
    · exact exec_sub ra rb hs
    · exact exec_nor ra rb hs
    · exact exec_li ra imm hs
    · exact exec_addi ra imm hs
  exact ⟨_, hexec, State.readReg_writeReg_self s ra p.2, fun _ => State.readReg_writeReg_of_ne s p.2,
    rfl, rfl, rfl, fun _ => rfl, fun _ => rfl⟩

/-- Settles O27, by `exec_mr`'s next state. -/
theorem memoryReadFrame : Obligations.MemoryReadFrame :=
  fun s ra imm hs => ⟨_, exec_mr ra imm hs, State.readReg_writeReg_self s ra _,
    fun _ => State.readReg_writeReg_of_ne s _, rfl, rfl, fun _ => rfl, fun _ => rfl⟩

/-- Settles O28, by `exec_mw`'s next state and the words a store leaves. -/
theorem memoryWriteFrame : Obligations.MemoryWriteFrame :=
  fun _ ra imm hs => ⟨_, exec_mw ra imm hs, fun _ => rfl, rfl, rfl,
    Memory.read_writeAt_cellIndex _, fun _ => Memory.read_writeAt_of_not_named _, fun _ => rfl⟩

/-- Settles O29: BEZ and J write `pc` only, HALT `run` only. -/
theorem controlFrame : Obligations.ControlFrame := by
  intro s ra off target hs i hi
  simp only [List.mem_cons, List.not_mem_nil, or_false] at hi
  obtain rfl | rfl | rfl := hi
  · exact ⟨_, exec_bez ra off hs, fun _ => rfl, rfl, rfl, fun _ => rfl, nofun, fun _ => rfl, fun _ => rfl⟩
  · exact ⟨_, exec_j target hs, fun _ => rfl, rfl, rfl, fun _ => rfl, nofun, fun _ => rfl, fun _ => rfl⟩
  · exact ⟨_, rfl, fun _ => rfl, rfl, rfl, fun h => absurd rfl h, fun _ => ⟨rfl, rfl⟩, fun _ => rfl, fun _ => rfl⟩

/-- Settles O19. The line assembles by `asmInstr_ofInstr`; the next state is `exec_li`'s register write and `pc + 1`. -/
theorem liAddsTheImmediate : Obligations.LiAddsTheImmediate :=
  fun ra imm => ⟨asmInstr_ofInstr (.li ra imm), rfl, rfl, fun _ => exec_li ra imm⟩

end Sys2Proof.Proofs
end

section
/-! What uses `mar` and data memory (10_state.md section 4, 70_reset_and_hazards.md section 3): MR and MW, and no other
instruction under the default control words. First R93's columns for the other instructions, then what those keep, alone
and in a list; the three obligations come last. -/

namespace Sys2Proof.Machine

/-! ### What leaves `mar` alone -/

theorem State.marWrite_of_cycle_mar_ne {c : Mcw} {f : Fields} {s : State} (h : (State.cycle c f s).mar ≠ s.mar) :
    c.marWrite = true := by
  by_contra hw
  exact h (by rw [State.cycle_mar, if_neg hw])

/-- R93's columns for the rows other than MR and MW: neither data memory nor `mar` is written, and what is written back
is the ALU result. -/
theorem defaultMcwTable_of_not_memory {i : Instr} {op : Op} (hi : instrOp i = some op) (h : isMemoryInstr i = false) :
    (controlWord defaultMcwTable op).memWrite = false ∧ (controlWord defaultMcwTable op).marWrite = false ∧
      ((controlWord defaultMcwTable op).regWrite = true → (controlWord defaultMcwTable op).regDst = true) := by
  cases i with
  | halt => nomatch hi
  | mr | mw => nomatch h
  | add | sub | nor | li | addi | bez | j =>
    obtain rfl := Option.some.inj hi
    decide

section
variable {s t : State}

theorem exec_mar_of_not_memory {i : Instr} (hs : s.UsesDefaultTable) (hi : isMemoryInstr i = false)
    (h : exec i s = .next t) : t.mar = s.mar := by
  obtain ⟨-, hexec⟩ | ⟨op, hop, hexec⟩ := exec_cases i s
  · obtain rfl := Host.Outcome.next.inj (h.symm.trans hexec)
    exact s.enterHalted_mar
  · obtain rfl := Host.Outcome.next.inj (h.symm.trans hexec)
    obtain ⟨-, hmar, -⟩ := defaultMcwTable_of_not_memory hop hi
    by_contra hne
    exact Bool.false_ne_true (hmar.symm.trans (hs ▸ State.marWrite_of_cycle_mar_ne hne))

/-- The address operand of MR or MW stands in `mar` afterwards. -/
theorem exec_mar_of_memory {ra : RegIdx} {imm : BitVec 8} (hs : s.UsesDefaultTable)
    (h : exec (.mr ra imm) s = .next t ∨ exec (.mw ra imm) s = .next t) :
    t.mar = s.readReg ra + imm.signExtend 16 := by
  obtain h | h := h
  · obtain rfl := Host.Outcome.next.inj (h.symm.trans (exec_mr ra imm hs))
    rfl
  · obtain rfl := Host.Outcome.next.inj (h.symm.trans (exec_mw ra imm hs))
    rfl

theorem exec_usesDefaultTable {i : Instr} (hs : s.UsesDefaultTable) (h : exec i s = .next t) : t.UsesDefaultTable := by
  rwa [State.UsesDefaultTable, exec_params h]

/-- A list of instructions other than MR and MW keeps `mar` and the control words. -/
theorem execAll_mar_of_not_memory {is : List Instr} (hs : s.UsesDefaultTable)
    (his : ∀ i ∈ is, isMemoryInstr i = false) (h : execAll is s = some t) : t.mar = s.mar ∧ t.UsesDefaultTable := by
  induction is generalizing s with
  | nil =>
    obtain rfl := Option.some.inj h
    exact ⟨rfl, hs⟩
  | cons i rest ih =>
    obtain ⟨hi, hrest⟩ := List.forall_mem_cons.mp his
    obtain ⟨u, hu⟩ := exists_exec_eq_next i s
    rw [execAll, hu] at h
    obtain ⟨hmar, ht⟩ := ih (exec_usesDefaultTable hs hu) hrest h
    exact ⟨hmar.trans (exec_mar_of_not_memory hs hi hu), ht⟩

end

/-! ### What does not look at `mar` or data memory -/

/-- A cycle that stores nothing, keeps `mar` and writes back the ALU result is the same over any `mar` and data memory.
-/
theorem State.cycle_with_mar_dmem {c : Mcw} (f : Fields) (s : State) (m : Word) (d : Memory)
    (hMem : c.memWrite = false) (hMar : c.marWrite = false) (hDst : c.regWrite = true → c.regDst = true) :
    State.cycle c f { s with mar := m, dmem := d } = { State.cycle c f s with mar := m, dmem := d } := by
  cases hReg : c.regWrite with
  | false => simp [State.cycle, hMem, hMar, hReg, State.setPc, State.readReg]
  | true => simp [State.cycle, hMem, hMar, hReg, hDst hReg, mux, State.setPc, State.writeReg, State.readReg]

theorem exec_with_mar_dmem {i : Instr} {s : State} (m : Word) (d : Memory) (hs : s.UsesDefaultTable)
    (hi : isMemoryInstr i = false) :
    ∃ t, exec i s = .next t ∧ exec i { s with mar := m, dmem := d } = .next { t with mar := m, dmem := d } := by
  obtain ⟨rfl, hexec⟩ | ⟨op, hop, hexec⟩ := exec_cases i s
  · exact ⟨_, hexec, rfl⟩
  · obtain ⟨hMem, hMar, hDst⟩ := defaultMcwTable_of_not_memory hop hi
    refine ⟨_, hexec, ?_⟩
    rw [exec_of_instrOp _ hop, hs, State.cycle_with_mar_dmem _ s m d hMem hMar hDst]

end Sys2Proof.Machine

namespace Sys2Proof.Proofs

open Sys2Proof.Machine

/-- Settles O32, by the cycle's MARwrite signal, R93's column for it, and what MR and MW leave in `mar`. -/
theorem marIsWrittenByMemoryInstructionsOnly : Obligations.MarIsWrittenByMemoryInstructionsOnly := by
  refine ⟨?anyTable, fun _ _ _ hs h hi => exec_mar_of_not_memory hs hi h, fun _ _ _ _ => exec_mar_of_memory⟩
  case anyTable =>
    intro i s t h hmar
    obtain ⟨-, hexec⟩ | ⟨op, hop, hexec⟩ := exec_cases i s
    · obtain rfl := Host.Outcome.next.inj (h.symm.trans hexec)
      exact absurd rfl hmar
    · obtain rfl := Host.Outcome.next.inj (h.symm.trans hexec)
      exact ⟨op, hop, State.marWrite_of_cycle_mar_ne hmar⟩

/-- Settles O33: the instructions between keep `mar` (`execAll_mar_of_not_memory`), and the next access is at it. -/
theorem dataAddressIsDelayedByOneAccess : Obligations.DataAddressIsDelayedByOneAccess := by
  refine ⟨?delayed, ?sinceReset⟩
  case delayed =>
    intro s0 s1 s2 a imm is hs h his hall b imm'
    have hs1 : s1.UsesDefaultTable := h.elim (exec_usesDefaultTable hs) (exec_usesDefaultTable hs)
    obtain ⟨hmar, hs2⟩ := execAll_mar_of_not_memory hs1 his hall
    rw [← exec_mar_of_memory hs h, ← hmar]
    exact ⟨⟨_, exec_mr b imm' hs2, State.readReg_writeReg_self s2 b _⟩, ⟨_, exec_mw b imm' hs2, rfl⟩⟩
  case sinceReset =>
    intro s s2 is hs his hall
    obtain ⟨hmar, -⟩ := execAll_mar_of_not_memory (s := hostAct .reset s) hs his hall
    exact hmar

/-- Settles O34: the second run is the first with its own `mar` and data memory. -/
theorem otherInstructionsIgnoreDataMemory : Obligations.OtherInstructionsIgnoreDataMemory := by
  intro i s m d hs hi
  obtain ⟨t, ht, hu⟩ := exec_with_mar_dmem m d hs hi
  exact ⟨t, _, ht, hu, rfl, rfl, rfl, rfl, rfl⟩

end Sys2Proof.Proofs
end

section
/-! `run()` under fuel (42_cycle.md section 4, R114, R115). First what a pulse of a RUNNING machine leaves, then a run
as pulses one after the other, then where a run ends and the two endless loops; the two obligations come last. -/

namespace Sys2Proof.Machine

section
variable {s : State}

/-! ### One pulse of a RUNNING machine -/

/-- The three ends of R144's tests: the halt, an executed cycle, the decode failure. -/
theorem tick_state_cases_of_running (hr : s.run = .running) :
    (s.ifetch = 0x0000 ∧ (tick s).state = s.enterHalted) ∨
      ((controllerDecode (opcodeField s.ifetch) (funcField s.ifetch)).isSome = true ∧
        (tick s).state.run = .running) ∨
      (s.ifetch ≠ 0x0000 ∧ controllerDecode (opcodeField s.ifetch) (funcField s.ifetch) = none ∧
        (tick s).state = s.enterFaulted) := by
  by_cases h0 : s.ifetch = 0x0000
  case pos => exact .inl ⟨h0, by rw [tick_of_ifetch_zero hr h0]⟩
  cases hop : controllerDecode (opcodeField s.ifetch) (funcField s.ifetch) with
  | some op => exact .inr (.inl ⟨rfl, by rw [tick_of_controllerDecode hr hop, State.cycle_run, hr]⟩)
  | none => exact .inr (.inr ⟨h0, rfl, by rw [tick_of_controllerDecode_eq_none hr h0 hop]⟩)

theorem tick_state_run_eq_running_iff (hr : s.run = .running) :
    (tick s).state.run = .running ↔
      (controllerDecode (opcodeField s.ifetch) (funcField s.ifetch)).isSome = true := by
  obtain ⟨h0, ht⟩ | ⟨hop, ht⟩ | ⟨-, hnone, ht⟩ := tick_state_cases_of_running hr
  · rw [ht, h0, State.enterHalted_run]
    decide
  · exact iff_of_true ht hop
  · rw [ht, hnone, State.enterFaulted_run]
    decide

/-! ### A run as pulses -/

theorem runFor_of_not_running (h : s.run ≠ .running) (n : Nat) : runFor n s = s := by
  cases n with
  | zero => rfl
  | succ n => exact if_neg h

/-- One unit of fuel is one pulse, of a stopped machine too (R100). -/
theorem runFor_succ (n : Nat) (s : State) : runFor (n + 1) s = runFor n (tick s).state := by
  by_cases hr : s.run = .running
  · exact if_pos hr
  · rw [runFor_of_not_running hr, tick_of_not_running hr, runFor_of_not_running hr]

theorem runFor_eq_hostActs (n : Nat) (s : State) : runFor n s = hostActs (List.replicate n HostInput.clk) s := by
  induction n generalizing s with
  | zero => rfl
  | succ n ih => rw [runFor_succ, ih, List.replicate_succ, hostActs, hostAct]

theorem runFor_add (m n : Nat) (s : State) : runFor (m + n) s = runFor n (runFor m s) := by
  induction m generalizing s with
  | zero => rw [Nat.zero_add, runFor]
  | succ m ih => rw [Nat.succ_add, runFor_succ, runFor_succ, ih]

theorem runFor_succ_eq_tick (n : Nat) (s : State) : runFor (n + 1) s = (tick (runFor n s)).state := by
  rw [runFor_add, runFor_succ, runFor]

theorem runFor_add_of_stopped {n : Nat} (k : Nat) (h : (runFor n s).run ≠ .running) :
    runFor (n + k) s = runFor n s := by
  rw [runFor_add, runFor_of_not_running h]

/-! ### Where a run ends -/

/-- A run that has stopped was stopped by one of its pulses. -/
theorem exists_stopping_pulse {n : Nat} (hr : s.run = .running) (hstop : (runFor n s).run ≠ .running) :
    ∃ k, k < n ∧ (runFor k s).run = .running ∧ runFor n s = (tick (runFor k s)).state := by
  induction n with
  | zero => exact absurd hr hstop
  | succ n ih =>
    by_cases hn : (runFor n s).run = .running
    · exact ⟨n, Nat.lt_succ_self n, hn, runFor_succ_eq_tick n s⟩
    · obtain ⟨k, hk, hrun, heq⟩ := ih hn
      exact ⟨k, hk.trans (Nat.lt_succ_self n), hrun, (runFor_add_of_stopped 1 hn).trans heq⟩

/-- The pulse that stopped a run fetched the halt word or an illegal one, and changed `run` only (R101, R140). -/
theorem exists_end_of_run {n : Nat} (hr : s.run = .running) (hstop : (runFor n s).run ≠ .running) :
    ∃ k, k < n ∧ (runFor k s).run = .running ∧
      (((runFor k s).ifetch = 0x0000 ∧ runFor n s = (runFor k s).enterHalted) ∨
        ((runFor k s).ifetch ≠ 0x0000 ∧
          controllerDecode (opcodeField (runFor k s).ifetch) (funcField (runFor k s).ifetch) = none ∧
          runFor n s = (runFor k s).enterFaulted)) := by
  obtain ⟨k, hk, hrun, heq⟩ := exists_stopping_pulse hr hstop
  refine ⟨k, hk, hrun, ?_⟩
  rw [heq] at hstop ⊢
  obtain hhalt | ⟨-, ht⟩ | hfault := tick_state_cases_of_running hrun
  · exact .inl hhalt
  · exact absurd ht hstop
  · exact .inr hfault

theorem runFor_run_eq_running_iff (n : Nat) (hr : s.run = .running) :
    (runFor n s).run = .running ↔
      ∀ k, k < n →
        (controllerDecode (opcodeField (runFor k s).ifetch) (funcField (runFor k s).ifetch)).isSome = true := by
  induction n with
  | zero => exact iff_of_true hr nofun
  | succ n ih =>
    rw [Nat.forall_lt_succ_right, ← ih]
    by_cases hn : (runFor n s).run = .running
    · rw [runFor_succ_eq_tick, tick_state_run_eq_running_iff hn]
      exact (and_iff_right hn).symm
    · rw [runFor_add_of_stopped 1 hn]
      exact iff_of_false hn fun h => hn h.1

/-! ### Endless loops -/

theorem runFor_of_tick_fixed (h : (tick s).state = s) (n : Nat) : runFor n s = s := by
  induction n with
  | zero => rfl
  | succ n ih => rw [runFor_succ, h, ih]

/-- An instruction that answers the state itself is executed again at every pulse. -/
theorem runFor_of_exec_fixed {i : Instr} (hr : s.run = .running) (hd : decode s.ifetch = .ok i)
    (h : exec i s = .next s) (n : Nat) : runFor n s = s :=
  runFor_of_tick_fixed (tick_state_of_next ((step_of_decode_ok hr hd).trans h)) n

theorem exec_j_self {target : BitVec 12} (hs : s.UsesDefaultTable) (h : s.pc.extractLsb' 0 12 = target) :
    exec (.j target) s = .next s := by
  have hpc : nextPcR14 (.j target) s = s.pc := h ▸ opcodeField_append_addrJField s.pc
  rw [exec_j target hs, hpc, State.setPc]

theorem exec_bez_self {ra : RegIdx} (hs : s.UsesDefaultTable) (h : s.readReg ra = 0x0000) :
    exec (.bez ra 0) s = .next s := by
  have hpc : nextPcR14 (.bez ra 0) s = s.pc := by
    have hzero : (0 : BitVec 8).signExtend 16 = 0#16 := rfl
    rw [nextPcR14, if_pos h, hzero, BitVec.add_zero]
  rw [exec_bez ra 0 hs, hpc, State.setPc]

end

end Sys2Proof.Machine

namespace Sys2Proof.Proofs

open Sys2Proof.Machine

/-- Settles O15. A run is its pulses one after the other; the pulse that stopped it is `exists_end_of_run`'s, and `run`
tells which of the two ends it was. -/
theorem runContinuesAndStops : Obligations.RunContinuesAndStops := by
  refine ⟨runFor_eq_hostActs, runFor_add, fun n s h => runFor_of_not_running h n,
    fun _ k _ => runFor_add_of_stopped k, ?halted, ?faulted⟩
  case halted =>
    intro n s hr hend
    obtain ⟨k, hk, hrun, ⟨h0, heq⟩ | ⟨-, -, heq⟩⟩ := exists_end_of_run (n := n) hr (by rw [hend]; decide)
    · exact ⟨heq ▸ h0, k, hk, hrun, heq⟩
    · rw [heq] at hend
      nomatch hend
  case faulted =>
    intro n s hr hend
    obtain ⟨k, hk, hrun, ⟨-, heq⟩ | ⟨h0, hnone, heq⟩⟩ := exists_end_of_run (n := n) hr (by rw [hend]; decide)
    · rw [heq] at hend
      nomatch hend
    · exact ⟨by rw [State.EndedNormally, hend]; decide, heq ▸ h0, heq ▸ hnone, k, hk, hrun, heq⟩

/-- Settles O56. A pulse leaves the machine RUNNING iff its fetched word has a row; the two loops answer the state
itself. -/
theorem runEndsOnlyAtHaltOrIllegalWord : Obligations.RunEndsOnlyAtHaltOrIllegalWord :=
  ⟨fun n _ hr => runFor_run_eq_running_iff n hr,
    fun n _ _ hs hr hd hpc => runFor_of_exec_fixed hr hd (exec_j_self hs hpc) n,
    fun n _ _ hs hr hd h0 => runFor_of_exec_fixed hr hd (exec_bez_self hs h0) n⟩

end Sys2Proof.Proofs
end

section
/-! Numbers and words (20_memory.md section 2, 40_primitives.md sections 1 and 2, 41_controller.md section 2): the range
test on unsigned values, `fromInteger` (R71), the ripple adder (R73), the control words as strings (R91). First each
function in terms of the bit vectors' own operations; the four obligations come last. -/

namespace Sys2Proof

open Machine

/-! ### The range test on unsigned values -/

section
variable {cap : Nat} {a : Word}

theorem msb_eq_false_of_inRange (h : inRange cap a = true) : a.msb = false :=
  Bool.eq_false_iff.mpr fun hneg => nomatch h.symm.trans (inRange_eq_false_of_msb cap hneg)

theorem cellIndex_eq_toNat (h : inRange cap a = true) : cellIndex a = a.toNat := by
  rw [cellIndex_eq_toNat_toInt, BitVec.toInt_eq_toNat_of_msb (msb_eq_false_of_inRange h), Int.toNat_natCast]

/-- With a capacity R6 allows, no word with bit 15 set is below it as an unsigned number either. -/
theorem inRange_iff_toNat_lt (hcap : cap ≤ 32768) : inRange cap a = true ↔ a.toNat < cap := by
  constructor
  · exact fun h => cellIndex_eq_toNat h ▸ cellIndex_lt h
  · intro h
    have hmsb : a.msb = false := by
      rw [BitVec.msb_eq_decide, decide_eq_false_iff_not]
      omega
    rw [inRange_iff_toInt, BitVec.toInt_eq_toNat_of_msb hmsb]
    omega

end

end Sys2Proof

namespace Sys2Proof.Machine

/-! ### `fromInteger` -/

/-- Where the magnitude fits, the magnitude in binary, negated for a negative value, is the integer modulo `2^n`. -/
theorem fromInteger_eq_ofInt {n : Nat} {v : Int} (h : v.natAbs ≤ 2 ^ n - 1) :
    fromInteger n v = some (BitVec.ofInt n v) := by
  rw [fromInteger, if_pos h]
  by_cases hv : v < 0
  · rw [if_pos hv, negate_eq_neg, ← BitVec.ofInt_natCast, ← BitVec.ofInt_neg, Int.ofNat_natAbs_of_nonpos hv.le,
      Int.neg_neg]
  · rw [if_neg hv, ← BitVec.ofInt_natCast, Int.natAbs_of_nonneg (Int.not_lt.mp hv)]

theorem fromInteger_of_gt {n : Nat} {v : Int} (h : 2 ^ n - 1 < v.natAbs) : fromInteger n v = none :=
  if_neg (Nat.not_le.mpr h)

theorem fromInteger_toInteger (a : Word) : fromInteger 16 (toInteger a) = some a := by
  have hlow : -2 ^ (16 - 1) ≤ a.toInt := BitVec.le_toInt a
  have hhigh : a.toInt < 2 ^ (16 - 1) := BitVec.toInt_lt
  rw [toInteger_eq_toInt, fromInteger_eq_ofInt (by omega), BitVec.ofInt_toInt]

/-! ### The ripple adder -/

section
variable {n : Nat} (a b : BitVec n)

/-- The majority of R73's full adder is the carry of the sum. -/
theorem rippleCarry_eq_carry (i : Nat) : rippleCarry a b i = BitVec.carry i a b false := by
  induction i with
  | zero => exact BitVec.carry_zero.symm
  | succ i ih => rw [rippleCarry, BitVec.carry_succ, ih, Bool.atLeastTwo]

theorem rippleAdd_eq_addWords : rippleAdd a b = addWords a b := by
  refine BitVec.eq_of_getLsbD_eq fun i hi => ?_
  rw [rippleAdd, getLsbD_ofBits, decide_eq_true hi, Bool.true_and, rippleCarry_eq_carry, addWords,
    BitVec.getLsbD_add hi, Bool.xor_assoc]

theorem ofInt_emod_two_pow (n : Nat) (v : Int) : BitVec.ofInt n (v % 2 ^ n) = BitVec.ofInt n v := by
  apply BitVec.eq_of_toNat_eq
  rw [BitVec.toNat_ofInt, BitVec.toNat_ofInt, Nat.cast_pow, Nat.cast_ofNat, Int.emod_emod]

theorem fromInteger_signed_sum : fromInteger n ((toInteger a + toInteger b) % 2 ^ n) = some (addWords a b) := by
  have hpos : (0 : Int) < 2 ^ n := by positivity
  have hfits : ((toInteger a + toInteger b) % 2 ^ n).natAbs ≤ 2 ^ n - 1 := by
    have hlow := Int.emod_nonneg (toInteger a + toInteger b) hpos.ne'
    have hhigh := Int.emod_lt_of_pos (toInteger a + toInteger b) hpos
    zify [Nat.one_le_two_pow (n := n)]
    rw [abs_of_nonneg hlow]
    exact Int.le_sub_one_of_lt hhigh
  rw [fromInteger_eq_ofInt hfits, ofInt_emod_two_pow, BitVec.ofInt_add, toInteger_eq_toInt, toInteger_eq_toInt,
    BitVec.ofInt_toInt, BitVec.ofInt_toInt, addWords]

end

/-! ### Control words as strings -/

theorem append_inj {n m : Nat} {x x' : BitVec n} {y y' : BitVec m} (h : x ++ y = x' ++ y') : x = x' ∧ y = y' := by
  have hLeft := congrArg (BitVec.extractLsb' m n) h
  have hRight := congrArg (BitVec.extractLsb' 0 m) h
  rw [BitVec.extractLsb'_append_eq_left, BitVec.extractLsb'_append_eq_left] at hLeft
  rw [BitVec.extractLsb'_append_eq_right, BitVec.extractLsb'_append_eq_right] at hRight
  exact ⟨hLeft, hRight⟩

theorem ofBool_getLsbD {n : Nat} (w : BitVec n) (i : Nat) : BitVec.ofBool (w.getLsbD i) = w.extractLsb' i 1 := by
  ext j hj
  obtain rfl : j = 0 := by omega
  simp

/-- The eight positions of R91 are adjacent and cover the string. -/
theorem mcwBits_mcwOfBits (w : BitVec 9) : mcwBits (mcwOfBits w) = w := by
  simp only [mcwBits, mcwOfBits, ofBool_getLsbD, BitVec.extractLsb'_append_extractLsb'_eq_extractLsb']
  exact BitVec.extractLsb'_eq_self

/-- Two control words with the same string agree at each of the eight positions of R91. -/
theorem mcwBits_injective : Function.Injective mcwBits := by
  intro c d h
  obtain ⟨h, hRegDst⟩ := append_inj h
  obtain ⟨h, hRegWrite⟩ := append_inj h
  obtain ⟨h, hMarWrite⟩ := append_inj h
  obtain ⟨h, hAluOp⟩ := append_inj h
  obtain ⟨h, hAluSrc⟩ := append_inj h
  obtain ⟨h, hMemWrite⟩ := append_inj h
  obtain ⟨hPcSrc, hBranch⟩ := append_inj h
  cases c
  cases d
  simp only [BitVec.ofBool_eq_iff_eq] at hPcSrc hBranch hMemWrite hAluSrc hMarWrite hRegWrite hRegDst
  exact Mcw.mk.injEq .. ▸ ⟨hPcSrc, hBranch, hMemWrite, hAluSrc, hAluOp, hMarWrite, hRegWrite, hRegDst⟩

theorem mcwOfBits_mcwBits (c : Mcw) : mcwOfBits (mcwBits c) = c :=
  mcwBits_injective (mcwBits_mcwOfBits (mcwBits c))

end Sys2Proof.Machine

namespace Sys2Proof.Proofs

open Sys2Proof.Machine

/-- Settles O39: in range the signed value is the unsigned one, bit 15 being 0. -/
theorem signedRangeTestIsUnsigned : Obligations.SignedRangeTestIsUnsigned :=
  fun cap _ => ⟨inRange_eq_false_of_msb cap, inRange_iff_toNat_lt, cellIndex_eq_toNat⟩

/-- Settles O49. Within its domain `fromInteger` is reduction modulo `2^n` (`fromInteger_eq_ofInt`). -/
theorem fromIntegerRoundTrip : Obligations.FromIntegerRoundTrip := by
  refine ⟨?fits, fun _ _ => fromInteger_of_gt, fromInteger_toInteger, rfl⟩
  case fits =>
    intro n v h
    refine ⟨_, fromInteger_eq_ofInt h, ?_⟩
    have hpos : (0 : Int) < 2 ^ n := by positivity
    rw [BitVec.toNat_ofInt, Nat.cast_pow, Nat.cast_ofNat, Int.toNat_of_nonneg (Int.emod_nonneg v hpos.ne')]

/-- Settles O51, bit by bit by the carries; the signed and the unsigned sum agree modulo `2^n`. -/
theorem rippleAdderIsTheModularSum : Obligations.RippleAdderIsTheModularSum :=
  fun _ a b => ⟨rippleAdd_eq_addWords a b, BitVec.toNat_add a b, fromInteger_signed_sum a b⟩

/-- Settles O55, by evaluating the nine constants and by the layout of the positions. -/
theorem defaultControlWords : Obligations.DefaultControlWords :=
  ⟨rfl, rfl, rfl, rfl, rfl, rfl, rfl, rfl, rfl, mcwBits_mcwOfBits, mcwOfBits_mcwBits⟩

end Sys2Proof.Proofs
end

section
/-! The image loader (20_memory.md section 12, R46). First a map that may refuse, which the loader is over the
characters of a line and over the lines; then the words of an image, then the word of a line bit by bit; the obligation
comes last. -/

namespace Sys2Proof

/-! ### A list mapped by a function that may refuse -/

section
variable {α β : Type} {f : α → Option β} {l : List α}

theorem mapM_eq_some_iff {bs : List β} : l.mapM f = some bs ↔ l.map f = bs.map some := by
  induction l generalizing bs with
  | nil => cases bs <;> simp
  | cons a rest ih => cases bs <;> simp [Option.bind_eq_some_iff, ih]

theorem mapM_eq_none_iff : l.mapM f = none ↔ ∃ a ∈ l, f a = none := by
  induction l with
  | nil => simp
  | cons a rest ih =>
    rw [List.mapM_cons, List.exists_mem_cons_iff, ← ih]
    cases f a <;> cases rest.mapM f <;> simp

theorem getElem?_of_mapM {bs : List β} (h : l.mapM f = some bs) (k : Nat) : bs[k]? = (l[k]?).bind f := by
  have hk : (l.map f)[k]? = (bs.map some)[k]? := by rw [mapM_eq_some_iff.mp h]
  rw [List.getElem?_map, List.getElem?_map] at hk
  calc
    bs[k]? = ((bs[k]?).map some).join := by cases bs[k]? <;> rfl
    _ = ((l[k]?).map f).join := by rw [hk]
    _ = (l[k]?).bind f := by cases l[k]? <;> rfl

theorem length_of_mapM {bs : List β} (h : l.mapM f = some bs) : bs.length = l.length := by
  simpa using congrArg List.length (mapM_eq_some_iff.mp h).symm

end

/-! ### The words of an image -/

theorem Memory.read_of_not_listed {m : Memory} {k : Nat} (h : ∀ c ∈ m, c.1 ≠ k) : m.read k = 0x0000 := by
  induction m with
  | nil => rfl
  | cons c rest ih =>
    obtain ⟨hc, hrest⟩ := List.forall_mem_cons.mp h
    rw [Memory.read, if_neg hc, ih hrest]

theorem Memory.read_ofWordsFrom (k j : Nat) (ws : List Word) :
    (Memory.ofWordsFrom k ws).read (k + j) = ws[j]?.getD 0x0000 := by
  induction ws generalizing k j with
  | nil => rfl
  | cons w rest ih =>
    cases j with
    | zero =>
      by_cases hw : w = 0x0000
      · have hlater : ∀ c ∈ Memory.ofWordsFrom (k + 1) rest, c.1 ≠ k := by
          intro c hc
          obtain ⟨hle, -⟩ := Memory.mem_ofWordsFrom hc
          omega
        simp [Memory.ofWordsFrom, hw, Memory.read_of_not_listed hlater]
      · rw [Memory.ofWordsFrom, if_neg hw, Memory.read, if_pos (Nat.add_zero k).symm]
        rfl
    | succ j =>
      have hrest : (Memory.ofWordsFrom (k + 1) rest).read (k + (j + 1)) = rest[j]?.getD 0x0000 := by
        rw [← ih (k + 1) j, Nat.add_right_comm, Nat.add_assoc]
      have hother : k ≠ k + (j + 1) := by omega
      rw [List.getElem?_cons_succ, ← hrest, Memory.ofWordsFrom]
      split
      · rfl
      · rw [Memory.read, if_neg hother]

theorem Memory.read_ofWords (cap k : Nat) (ws : List Word) :
    (Memory.ofWords cap ws).read k = if k < cap then ws[k]?.getD 0x0000 else 0x0000 := by
  have h := Memory.read_ofWordsFrom 0 k (ws.take cap)
  rw [Nat.zero_add, List.getElem?_take] at h
  rw [Memory.ofWords, h]
  split <;> rfl

end Sys2Proof

namespace Sys2Proof.Machine

/-! ### The word of a line -/

theorem charBit_eq_none_iff {c : Char} : charBit c = none ↔ c ≠ '0' ∧ c ≠ '1' := by
  by_cases h0 : c = '0' <;> by_cases h1 : c = '1' <;> simp [charBit, h0, h1]

theorem charBit_eq_some_true_iff {c : Char} : charBit c = some true ↔ c = '1' := by
  by_cases h0 : c = '0' <;> by_cases h1 : c = '1' <;> simp [charBit, h0, h1]

theorem lineBits_eq_mapM (line : List Char) : lineBits line = line.mapM charBit := by
  induction line with
  | nil => rfl
  | cons c rest ih =>
    rw [lineBits, List.mapM_cons, ih]
    cases charBit c <;> cases rest.mapM charBit <;> rfl

theorem lineWord_eq_none_iff {line : List Char} : lineWord line = none ↔ ∃ c ∈ line, c ≠ '0' ∧ c ≠ '1' := by
  rw [lineWord, Option.map_eq_none_iff, lineBits_eq_mapM, mapM_eq_none_iff]
  simp only [charBit_eq_none_iff]

theorem wordOfBits_concat (bits : List Bool) (b : Bool) :
    wordOfBits (bits ++ [b]) = (wordOfBits bits <<< 1) ||| BitVec.zeroExtend 16 (BitVec.ofBool b) :=
  List.foldl_concat ..

/-- The last bit of the list is bit 0 of the word. -/
theorem getLsbD_wordOfBits (bits : List Bool) {i : Nat} (hi : i < 16) :
    (wordOfBits bits).getLsbD i = true ↔ bits.reverse[i]? = some true := by
  induction bits using List.reverseRecOn generalizing i with
  | nil => simp [wordOfBits]
  | append_singleton bits b ih =>
    rw [wordOfBits_concat, List.reverse_concat]
    cases i with
    | zero => simp
    | succ i =>
      have hi' := Nat.lt_of_succ_lt hi
      simpa [hi, hi'] using ih hi'

theorem getLsbD_of_lineWord {cs : List Char} {w : Word} (h : lineWord cs = some w) {i : Nat} (hi : i < 16) :
    w.getLsbD i = true ↔ i < min 16 cs.length ∧ cs[min 16 cs.length - 1 - i]? = some '1' := by
  obtain ⟨bits, hbits, rfl⟩ := Option.map_eq_some_iff.mp h
  rw [lineBits_eq_mapM] at hbits
  have hlen : (bits.take 16).length = min 16 cs.length := by rw [List.length_take, length_of_mapM hbits]
  rw [getLsbD_wordOfBits _ hi]
  by_cases hshort : i < min 16 cs.length
  · have hindex : min 16 cs.length - 1 - i < 16 := by omega
    rw [List.getElem?_reverse (hlen ▸ hshort), hlen, List.getElem?_take_of_lt hindex, getElem?_of_mapM hbits]
    simp [hshort, Option.bind_eq_some_iff, charBit_eq_some_true_iff]
  · simp [hshort, hlen]

/-! ### The loader -/

theorem lineWords_eq_mapM (lines : List (List Char)) : lineWords lines = lines.mapM lineWord := by
  induction lines with
  | nil => rfl
  | cons l rest ih =>
    rw [lineWords, List.mapM_cons, ih]
    cases lineWord l <;> cases rest.mapM lineWord <;> rfl

theorem loadImage_eq_none_iff {cap : Nat} {lines : List (List Char)} :
    loadImage cap lines = none ↔ ∃ l ∈ lines.take cap, lineWord l = none := by
  rw [loadImage, Option.map_eq_none_iff, lineWords_eq_mapM, mapM_eq_none_iff]

theorem exists_words_of_loadImage {cap : Nat} {lines : List (List Char)} {m : Memory}
    (h : loadImage cap lines = some m) :
    ∃ ws, (lines.take cap).mapM lineWord = some ws ∧ m = Memory.ofWords cap ws := by
  obtain ⟨ws, hws, rfl⟩ := Option.map_eq_some_iff.mp h
  exact ⟨ws, lineWords_eq_mapM _ ▸ hws, rfl⟩

end Sys2Proof.Machine

namespace Sys2Proof.Proofs

open Sys2Proof.Machine

/-- Settles O41. Word `k` of the image is that of line `k` of those within the capacity; a line is refused for one of
its characters, an image for one of those lines. -/
theorem loadedImageHoldsItsLines : Obligations.LoadedImageHoldsItsLines := by
  refine ⟨?loaded, fun _ _ => loadImage_eq_none_iff, fun _ => lineWord_eq_none_iff, ?bits⟩
  case loaded =>
    intro cap lines m h
    obtain ⟨ws, hws, rfl⟩ := exists_words_of_loadImage h
    refine ⟨Memory.ofWords_wf cap ws, fun k => ?_⟩
    rw [Memory.read_ofWords, getElem?_of_mapM hws]
    split
    · next hk => rw [List.getElem?_take_of_lt hk]
    · rfl
  case bits =>
    intro cs w h i hi
    rw [Bool.eq_iff_iff, decide_eq_true_iff]
    exact getLsbD_of_lineWord h hi

end Sys2Proof.Proofs
end
